-- ==== Sys2Proof/Word.lean ====
section
/-! DEFINITION. The machine word (00_scope.md R6): a 64-bit signed two's-complement integer. -/

namespace Sys2Proof

/-- A Word (R6). Read as a signed integer it is `Word.toInt`; `wrap` (Machine/Alu.lean) goes back. -/
abbrev Word := BitVec 64

end Sys2Proof
end

