-- ==== Sys2Proof/Config.lean ====
section
/-! DEFINITION. The parameters of the hardware (00_scope.md R5). The one OPEN parameter, the number N of
instances, is the argument of net_init (Machine/Transact.lean). The spec leaves no value undefined, so
there is no free value here. -/

namespace Sys2Proof

/-- WORD_MIN (R5). -/
def Config.wordMin : Int := -9223372036854775808

/-- WORD_MAX (R5). -/
def Config.wordMax : Int := 9223372036854775807

/-- ADDR_MAX, the highest legal address (R5, D3). -/
def Config.addrMax : Int := 9223372036854775807

/-- PC0, the default program counter after load (R5). -/
def Config.pc0 : Word := 0

/-- RB0, the default relative base after load (R5). -/
def Config.rb0 : Word := 0

/-- SENTINEL, the input that says that no packet is there (R5, R214, D25): -1. -/
def Config.sentinel : Word := BitVec.ofInt 64 (-1)

end Sys2Proof
end

