-- ==== Sys2Proof/Syntax.lean ====
section
/-! DEFINITION. The instructions as decoding answers them (30_encoding.md R84, R85, R98), and the three
faults an instruction can raise (60_exceptions.md R240 to R243). -/

namespace Sys2Proof

/-- The three parameter modes (R84). -/
inductive Mode where
  /-- digit 0: the operand word is an address -/
  | position
  /-- digit 1: the operand word is the value; illegal on a write target (R86) -/
  | immediate
  /-- digit 2: the operand word is an offset from rb -/
  | relative
  deriving DecidableEq, Repr

/-- One constructor per row of the opcode table, with the modes of its operands in declaration order (R85).
This is what the spec's Decode answers (R98): operand words are not part of it, they are read from memory
at pc + 1, pc + 2, ... when the operands are resolved (R114, R130). -/
inductive Instr where
  | add (a b dst : Mode)
  | mul (a b dst : Mode)
  | inp (dst : Mode)
  | out (src : Mode)
  | jt (cond target : Mode)
  | jf (cond target : Mode)
  | lt (a b dst : Mode)
  | eq (a b dst : Mode)
  | arb (delta : Mode)
  | halt
  deriving DecidableEq, Repr

/-- Which of the three faults was raised, with its info (R241 to R243). -/
inductive FaultCause where
  /-- R241: the word at pc selects no instruction; info: that word -/
  | badOpcode (word : Word)
  /-- R242: an address outside 0..ADDR_MAX; info: the exact address -/
  | addressError (addr : Int)
  /-- R243: an illegal mode digit; info: the operand's index and the digit -/
  | invalidParameterMode (operand digit : Nat)
  deriving DecidableEq, Repr

/-- The number of operands (R80, R85), and so the number of operand words. -/
def Instr.arity : Instr → Nat
  | .add _ _ _ => 3
  | .mul _ _ _ => 3
  | .inp _ => 1
  | .out _ => 1
  | .jt _ _ => 2
  | .jf _ _ => 2
  | .lt _ _ _ => 3
  | .eq _ _ _ => 3
  | .arb _ => 1
  | .halt => 0

/-- The mode of the write target, for the instructions that have one (R85): it is the last operand. -/
def Instr.writeMode : Instr → Option Mode
  | .add _ _ d => some d
  | .mul _ _ d => some d
  | .inp d => some d
  | .out _ => none
  | .jt _ _ => none
  | .jf _ _ => none
  | .lt _ _ d => some d
  | .eq _ _ d => some d
  | .arb _ => none
  | .halt => none

end Sys2Proof
end

