-- ==== Sys2Proof/WellFormed.lean ====
section
/-! DEFINITION. Which instruction terms the encoding admits (30_encoding.md R86): a read operand has any of
the three modes, a write target has mode 0 or 2. -/

namespace Sys2Proof

/-- R86: the write target, where there is one, is not immediate. -/
def Instr.wellFormed (i : Instr) : Bool :=
  match i.writeMode with
  | some .immediate => false
  | some .position => true
  | some .relative => true
  | none => true

end Sys2Proof
end

