-- ==== Sys2Proof/Decode.lean ====
section
/-! DEFINITION. The decoder (30_encoding.md R98), total on every Word and rejecting by the fault the spec
names, and the encoder (R81, R94). The encoding is decimal. -/

namespace Sys2Proof

/-- The opcode of a non-negative word: its two low decimal digits (R82). -/
def opcodeOf (w : Word) : Nat := w.toNat % 100

/-- The mode digit of operand i (i from 1) of a non-negative word: decimal digit i + 1 (R83). -/
def modeDigit (w : Word) (i : Nat) : Nat := w.toNat / 10 ^ (i + 1) % 10

/-- The mode of read operand i (R88, R98). -/
def decodeReadMode (w : Word) (i : Nat) : Except FaultCause Mode :=
  match modeDigit w i with
  | 0 => .ok .position
  | 1 => .ok .immediate
  | 2 => .ok .relative
  | n => .error (.invalidParameterMode i n)

/-- The mode of write target i: digit 1 is illegal too (R86, R88, R98). -/
def decodeWriteMode (w : Word) (i : Nat) : Except FaultCause Mode :=
  match modeDigit w i with
  | 0 => .ok .position
  | 2 => .ok .relative
  | n => .error (.invalidParameterMode i n)

/-- Operands read, read, write: ADD, MUL, LT, EQ (R85). -/
def decodeReadReadWrite (w : Word) (k : Mode → Mode → Mode → Instr) : Except FaultCause Instr := do
  let a ← decodeReadMode w 1
  let b ← decodeReadMode w 2
  let d ← decodeWriteMode w 3
  return k a b d

/-- Operands read, read: JT, JF (R85). -/
def decodeReadRead (w : Word) (k : Mode → Mode → Instr) : Except FaultCause Instr := do
  let a ← decodeReadMode w 1
  let b ← decodeReadMode w 2
  return k a b

/-- Decode (R98): a pure function of the opcode word (R113). A negative word is BadOpcode (R82, D5), so is an
opcode outside the ten (R87); then the mode digits, operand 1 first (R88). Digits above the last operand's are
not examined (R89). -/
def decode (w : Word) : Except FaultCause Instr :=
  if w.toInt < 0 then .error (.badOpcode w)
  else
    match opcodeOf w with
    | 1 => decodeReadReadWrite w .add
    | 2 => decodeReadReadWrite w .mul
    | 3 => do return .inp (← decodeWriteMode w 1)
    | 4 => do return .out (← decodeReadMode w 1)
    | 5 => decodeReadRead w .jt
    | 6 => decodeReadRead w .jf
    | 7 => decodeReadReadWrite w .lt
    | 8 => decodeReadReadWrite w .eq
    | 9 => do return .arb (← decodeReadMode w 1)
    | 99 => .ok .halt
    | _ => .error (.badOpcode w)

/-- The words of a table row's instruction: 64-bit words, the first in the low bits, zero above nbits; up to the
longest instruction, four words (R80). -/
def tableWords (nbits w : Nat) : List Word :=
  let b := w % 2 ^ nbits
  [BitVec.ofNat 64 b, BitVec.ofNat 64 (b / 2 ^ 64), BitVec.ofNat 64 (b / 2 ^ 128), BitVec.ofNat 64 (b / 2 ^ 192)]

/-- The instruction the decoder reads from a row's bits: the opcode word alone decides it (R98, R113). -/
def decodeTableWord (nbits w : Nat) : Option Instr :=
  match tableWords nbits w with
  | opcodeWord :: _ => (decode opcodeWord).toOption
  | [] => none

/-- The digit of a mode (R84). -/
def Mode.digit : Mode → Nat
  | .position => 0
  | .immediate => 1
  | .relative => 2

/-- The opcode number of an instruction (R85, R96). -/
def Instr.opcode : Instr → Nat
  | .add _ _ _ => 1
  | .mul _ _ _ => 2
  | .inp _ => 3
  | .out _ => 4
  | .jt _ _ => 5
  | .jf _ _ => 6
  | .lt _ _ _ => 7
  | .eq _ _ _ => 8
  | .arb _ => 9
  | .halt => 99

/-- The modes of the operands, operand 1 first (R85). -/
def Instr.modes : Instr → List Mode
  | .add a b d => [a, b, d]
  | .mul a b d => [a, b, d]
  | .inp d => [d]
  | .out a => [a]
  | .jt c t => [c, t]
  | .jf c t => [c, t]
  | .lt a b d => [a, b, d]
  | .eq a b d => [a, b, d]
  | .arb a => [a]
  | .halt => []

/-- The value of mode digits written above the opcode: operand 1's is the lowest (R81). -/
def modesValue : List Mode → Nat
  | [] => 0
  | m :: ms => m.digit + 10 * modesValue ms

/-- The number an instruction's canonical opcode word holds: opcode + 100 m1 + 1000 m2 + 10000 m3 (R81, R94). -/
def Instr.encodeNat (i : Instr) : Nat := i.opcode + 100 * modesValue i.modes

/-- The canonical opcode word of an instruction (R89, R94, R97). -/
def encode (i : Instr) : Word := BitVec.ofNat 64 i.encodeNat

/-- The words of an instruction as they lie in memory: the opcode word, then one word per operand (R80). -/
def assemble (i : Instr) (operands : List Word) : List Word := encode i :: operands.take i.arity

/-- ARITY of R98: the ten opcodes and how many operands each has. -/
def arityTable : List (Nat × Nat) :=
  [(1, 3), (2, 3), (3, 1), (4, 1), (5, 2), (6, 2), (7, 3), (8, 3), (9, 1), (99, 0)]

/-- WTGT of R98: the index of the write target of the opcodes that have one. -/
def writeTargetTable : List (Nat × Nat) := [(1, 3), (2, 3), (3, 1), (7, 3), (8, 3)]

end Sys2Proof
end

