-- ==== Sys2Proof/Machine/State.lean ====
section
/-! DEFINITION. The state of an instance (10_state.md R20) and of the network (R32), and the fields the model
adds: which transaction is in progress (assumption log 4) and what the last one handed back (log 5). -/

namespace Sys2Proof.Machine

/-- One listed cell: its address and its Word. The smallest addressable unit is a whole Word (R50, D41; log 1). -/
abbrev Cell := Nat × Word

/-- The memory of an instance (R28), in canonical form: addresses strictly rising, no listed Word 0, which is what an
unlisted address reads as (R51). The form is `Memory.wf`. -/
abbrev Memory := List Cell

/-- run_state (R25). -/
inductive RunState where
  | running
  | waitingForInput
  | halted
  deriving DecidableEq, Repr

/-- The fault record (R246). `cause` holds the kind of fault and its info together; the code is `faultCode`. -/
structure FaultRecord where
  /-- code and info -/
  cause : FaultCause
  /-- the address of the faulting instruction's opcode word -/
  pc : Word
  /-- the instruction word, absent if the fetch itself raised -/
  word : Option Word
  deriving DecidableEq, Repr

/-- The state of one instance (R20). -/
structure VM where
  mem : Memory
  /-- the highest address touched, -1 when none (R27) -/
  hwm : Int
  pc : Word
  rb : Word
  /-- input FIFO, head first (R29) -/
  inq : List Word
  /-- output FIFO, head first (R30) -/
  outq : List Word
  runState : RunState
  /-- the fault latch (R26) -/
  fault : Option FaultRecord
  deriving DecidableEq, Repr

/-- An instance after power-on reset: load of the empty image with the defaults (R34, R270). -/
def VM.powerOn : VM :=
  { mem := [], hwm := -1, pc := Config.pc0, rb := Config.rb0, inq := [], outq := [], runState := .running, fault := none }

/-- Place i of the network: vm[i], with the router's stage[i] and partial[i] (R32). -/
structure Slot where
  vm : VM
  /-- Words waiting for the round boundary, for destination i -/
  stage : List Word
  /-- 0, 1 or 2 output Words of source i that do not yet make a packet -/
  partialOut : List Word
  deriving DecidableEq, Repr

/-- A packet whose destination is no instance (R32, R218). -/
structure EgressPacket where
  src : Nat
  dest : Word
  x : Word
  y : Word
  deriving DecidableEq, Repr

/-- What `run()` says of how the run ended (R189). -/
inductive Status where
  | halted
  | waitingForInput
  | ranOff
  | fault (code : Nat)
  deriving DecidableEq, Repr

/-- The record of a completed round (R221). -/
structure RoundResult where
  sent : Nat
  turns : Nat
  idle : Bool
  deriving DecidableEq, Repr

/-- What a transaction hands back to the host (R185, R221, R222, R260). -/
inductive Reply where
  /-- a transaction that returns nothing is done -/
  | done
  /-- run() returned (R188) -/
  | ran (status : Status) (outputs : List Word)
  /-- peek_memory returned a Word (R193) -/
  | word (v : Word)
  /-- peek_memory or poke_memory with an address outside the range (R260) -/
  | addressError (addr : Int)
  /-- load with an image that is too long or holds a value that is no Word (R260) -/
  | badImage
  /-- round() or run_network() returned (R221, R228) -/
  | round (r : RoundResult)
  /-- round() or run_network() returned the network's fault (R222) -/
  | netFault (i : Nat) (r : FaultRecord)
  /-- the egress queue, handed over and emptied (R218, R225) -/
  | egress (packets : List EgressPacket)
  deriving DecidableEq, Repr

/-- The variables of a round in progress (R224): packets sent, turns taken, and whether run_network (R228) goes on
with another round. -/
structure RoundCtl where
  sent : Nat
  turns : Nat
  loop : Bool
  deriving DecidableEq, Repr

/-- Which transaction is in progress, and so what moves next (R197, R212; log 4). -/
inductive Activity where
  /-- none: the host has the move -/
  | idle
  /-- run() of the instance in focus, issued by the host -/
  | run
  /-- a round: the router is at the place in focus, before its turn -/
  | turn (c : RoundCtl)
  /-- a round: run() of the instance in focus, its turn -/
  | turnRun (c : RoundCtl)
  /-- a round: all turns are taken, the boundary is next (R219) -/
  | deliver (c : RoundCtl)
  deriving DecidableEq, Repr

/-- The machine. The N instances in index order are `lower ++ slot :: higher` (log 3): `slot` is the one in focus, the
one whose instructions execute, and its index is the length of `lower`. N is at least 1 (R210). -/
structure State where
  lower : List Slot
  slot : Slot
  higher : List Slot
  egress : List EgressPacket
  /-- the network's fault latch (R222): the index of the instance and its record -/
  netFault : Option (Nat × FaultRecord)
  activity : Activity
  reply : Option Reply
  deriving DecidableEq, Repr

/-- Why `step` has no step. The spec's own faults are no constructor here: they are taken, as a next state with the
latch `VM.fault` written (R249). -/
inductive Fault where
  /-- Raised by `step` when no transaction is in progress: only the host can move (R197, R258). Safe: nothing happens. -/
  | noTransaction
  deriving DecidableEq, Repr

/-- What the model gives no meaning. -/
inductive Refusal where
  /-- Raised by an arm of `exec` for an instruction without a meaning. Safe. No arm raises it. -/
  | notModelled (mnemonic : String)
  /-- Raised by `transact` while a run() or a round() is in progress: the host has no such move (R197, R278, D22). Safe. -/
  | transactionInProgress
  /-- Raised by `transact` for an index that is no instance's. Safe. -/
  | noSuchVM
  /-- Raised by `transact` for net_init with N = 0 (R210) or with N beyond the identifiers a Word can hold (log 9). Safe. -/
  | badNetworkSize
  deriving DecidableEq, Repr

/-- The machine after power-on reset (R34, R270): one instance (log 8), nothing in progress. -/
def State.reset : State :=
  { lower := []
    slot := { vm := VM.powerOn, stage := [], partialOut := [] }
    higher := []
    egress := []
    netFault := none
    activity := .idle
    reply := none }

end Sys2Proof.Machine
end

