-- ==== Sys2Proof/Machine/Alu.lean ====
section
/-! DEFINITION. The ALU's sum and product (42_arithmetic.md R145). Its comparisons are in Flags.lean. -/

namespace Sys2Proof.Machine

/-- wrap: the Word congruent to v modulo 2^64 (R6). -/
def wrap (v : Int) : Word := BitVec.ofInt 64 v

/-- The sum, computed exactly and then wrapped (R145, D2). -/
def aluSum (x y : Word) : Word := wrap (x.toInt + y.toInt)

/-- The product, computed exactly and then wrapped (R145, D2). -/
def aluProduct (x y : Word) : Word := wrap (x.toInt * y.toInt)

end Sys2Proof.Machine
end

