-- ==== Sys2Proof/Machine/Flags.lean ====
section
/-! DEFINITION. The hardware has no flags (10_state.md R24): what other machines put in a flag, LT and EQ write to
memory as the Word 1 or 0 (43_compare.md R157). These are those two computations, and the test the jumps make. -/

namespace Sys2Proof.Machine

/-- The Word 1 when the relation holds and the Word 0 when it does not (R157). -/
def truthWord (b : Bool) : Word := if b then 1 else 0

/-- Signed less-than of whole Words (R155, R157, D38). -/
def lessWord (x y : Word) : Word := truthWord (decide (x.toInt < y.toInt))

/-- Equality of Words (R156, R157). -/
def equalWord (x y : Word) : Word := truthWord (decide (x = y))

/-- What JT tests: any Word but 0 is true (R170). -/
def wordTrue (x : Word) : Bool := decide (x ≠ 0)

/-- What JF tests: the Word 0 only is false (R171). -/
def wordFalse (x : Word) : Bool := decide (x = 0)

end Sys2Proof.Machine
end

