-- ==== Sys2Proof/Machine/Ops.lean ====
section
/-! DEFINITION. The named operations on memory (20_memory.md), registers, FIFOs (44_io.md R162), the taking of a fault
(60_exceptions.md R246 to R249), the three ways an instruction ends (40_pipeline.md R117), and the places of the
network. -/

namespace Sys2Proof.Machine

/-! ### Memory -/

/-- What an unlisted address reads as (R51). -/
def unlistedWord : Word := 0

/-- The cell at address a (R28, R51). -/
def Memory.read : Memory → Nat → Word
  | [], _ => unlistedWord
  | (k, v) :: m, a => if k = a then v else Memory.read m a

/-- The memory with v at address a, kept in canonical form. -/
def Memory.write : Memory → Nat → Word → Memory
  | [], a, v => if v = unlistedWord then [] else [(a, v)]
  | (k, w) :: m, a, v =>
    if a < k then (if v = unlistedWord then (k, w) :: m else (a, v) :: (k, w) :: m)
    else if a = k then (if v = unlistedWord then m else (a, v) :: m)
    else (k, w) :: Memory.write m a v

/-- Canonical form from address lo up: addresses strictly rising, no listed Word equal to an unlisted one. -/
def Memory.wfFrom : Nat → Memory → Bool
  | _, [] => true
  | lo, (k, v) :: m => decide (lo ≤ k) && decide (v ≠ unlistedWord) && Memory.wfFrom (k + 1) m

/-- The canonical form. -/
def Memory.wf (m : Memory) : Bool := Memory.wfFrom 0 m

/-- The memory with the Words of an image from address k up and 0 everywhere else (R186). -/
def Memory.ofImage : Nat → List Word → Memory
  | _, [] => []
  | k, v :: vs => if v = unlistedWord then Memory.ofImage (k + 1) vs else (k, v) :: Memory.ofImage (k + 1) vs

/-- The legal addresses (R50, R54, D3). -/
abbrev legalAddress (a : Int) : Prop := 0 ≤ a ∧ a ≤ Config.addrMax

/-! ### How an instruction ends -/

/-- Why an instruction does not complete: it raises a fault, or it suspends (R117). -/
inductive Abort where
  | raise (c : FaultCause)
  | suspend
  deriving DecidableEq, Repr

/-- MemRead(a, 1) (R52). The update of hwm that goes with it is `VM.touch`, made when the instruction completes. -/
def VM.memRead (v : VM) (a : Int) : Except Abort Word :=
  if legalAddress a then .ok (v.mem.read a.toNat) else .error (.raise (.addressError a))

/-- hwm raised to address a (R27, R55). -/
def VM.touch (v : VM) (a : Int) : VM := { v with hwm := max v.hwm a }

/-- MemWrite(a, 1, x) for a legal address a (R53): the cell, and hwm raised to it. -/
def VM.store (v : VM) (a : Int) (x : Word) : VM := { v with mem := v.mem.write a.toNat x, hwm := max v.hwm a }

/-- The sequential advance past an instruction with n operands (R116, R22, D4). -/
def VM.advance (v : VM) (n : Nat) : VM := { v with pc := wrap (v.pc.toInt + 1 + n) }

/-! ### The FIFOs -/

/-- InEmpty() and InPop() (R162): none when the input FIFO is empty, else its head and the instance without it. -/
def VM.inPop (v : VM) : Option (Word × VM) :=
  match v.inq with
  | [] => none
  | x :: xs => some (x, { v with inq := xs })

/-- OutPush(x) (R162). -/
def VM.outPush (v : VM) (x : Word) : VM := { v with outq := v.outq ++ [x] }

/-- enqueue_input(x) (R187): nothing else changes. -/
def VM.enqueueInput (v : VM) (x : Word) : VM := { v with inq := v.inq ++ [x] }

/-! ### Faults -/

/-- The cause codes (R245, D16); 0 is "no fault". -/
def faultCode : FaultCause → Nat
  | .badOpcode _ => 1
  | .addressError _ => 2
  | .invalidParameterMode _ _ => 3

/-- The instruction word, if it can be fetched (R112, R246). -/
def VM.wordAtPc (v : VM) : Option Word :=
  if legalAddress v.pc.toInt then some (v.mem.read v.pc.toInt.toNat) else none

/-- Taking a fault (R246 to R249): the record is written to the latch and nothing else changes. There is no handler, no
saved register and no mode (R249). There is no return either (R251): only `VM.load` clears the latch. -/
def VM.takeFault (v : VM) (c : FaultCause) : VM :=
  { v with fault := some { cause := c, pc := v.pc, word := v.wordAtPc } }

/-- A suspend (R118, R163): run_state becomes WaitingForInput and nothing else changes. -/
def VM.suspend (v : VM) : VM := { v with runState := .waitingForInput }

/-- The atomic commit (R117): the instruction's effects, or the fault latch alone, or run_state alone. -/
def VM.conclude (v : VM) : Except Abort VM → VM
  | .ok v' => v'
  | .error (.raise c) => v.takeFault c
  | .error .suspend => v.suspend

/-! ### The instance in focus -/

/-- The instance in focus. -/
abbrev State.vm (s : State) : VM := s.slot.vm

/-- The machine with the instance in focus replaced. -/
def State.withVm (s : State) (v : VM) : State := { s with slot := { s.slot with vm := v } }

/-- An instruction's end, on the machine (R117): only the instance in focus changes (R33). -/
def State.conclude (s : State) (r : Except Abort VM) : Host.Outcome State Fault Refusal :=
  .next (s.withVm (s.vm.conclude r))

/-! ### The places of the network -/

/-- All places in index order (R32). -/
def State.slots (s : State) : List Slot := s.lower ++ s.slot :: s.higher

/-- N (R210). -/
def State.size (s : State) : Nat := s.lower.length + 1 + s.higher.length

/-- The index of the instance in focus. -/
def State.index (s : State) : Nat := s.lower.length

/-- A list cut at index i, if it has one. -/
def cutAt : Nat → List Slot → Option (List Slot × Slot × List Slot)
  | _, [] => none
  | 0, x :: xs => some ([], x, xs)
  | i + 1, x :: xs =>
    match cutAt i xs with
    | some (l, y, h) => some (x :: l, y, h)
    | none => none

/-- The machine with instance i in focus; none if there is no instance i. -/
def State.focus (s : State) (i : Nat) : Option State :=
  match cutAt i s.slots with
  | some (l, x, h) => some { s with lower := l, slot := x, higher := h }
  | none => none

/-- The machine with instance 0 in focus: where a round begins (R212). -/
def State.rewind (s : State) : State :=
  match s.lower with
  | [] => s
  | x :: xs => { s with lower := [], slot := x, higher := xs ++ s.slot :: s.higher }

/-- The list with f applied at index i. -/
def modifyAt : Nat → (Slot → Slot) → List Slot → List Slot
  | _, _, [] => []
  | 0, f, x :: xs => f x :: xs
  | i + 1, f, x :: xs => x :: modifyAt i f xs

/-- The machine with f applied at place i. -/
def State.modifySlot (s : State) (i : Nat) (f : Slot → Slot) : State :=
  if i < s.lower.length then { s with lower := modifyAt i f s.lower }
  else if i = s.lower.length then { s with slot := f s.slot }
  else { s with higher := modifyAt (i - s.lower.length - 1) f s.higher }

/-- The machine with f applied at every place. -/
def State.mapSlots (s : State) (f : Slot → Slot) : State :=
  { s with lower := s.lower.map f, slot := f s.slot, higher := s.higher.map f }

end Sys2Proof.Machine
end

