-- ==== Sys2Proof/Machine/Operands.lean ====
section
/-! DEFINITION. The address-mode resolver (41_operands.md). Address sums are exact integers (R137). -/

namespace Sys2Proof.Machine

/-- A resolved read operand: its value, and the highest address its resolution read (R55). -/
structure ReadOperand where
  value : Word
  top : Int
  deriving DecidableEq, Repr

/-- A resolved write target: the address to write, and the highest address its resolution read (R55, R140). -/
structure WriteTarget where
  target : Int
  top : Int
  deriving DecidableEq, Repr

/-- The address of operand word i (R130). -/
def VM.operandAddress (v : VM) (i : Nat) : Int := v.pc.toInt + i

/-- ResolveRead(i) (R139; R131, R132, R133). -/
def VM.resolveRead (v : VM) (i : Nat) (m : Mode) : Except Abort ReadOperand := do
  let at_ := v.operandAddress i
  let p ← v.memRead at_
  match m with
  | .position => do
    let x ← v.memRead p.toInt
    return { value := x, top := max at_ p.toInt }
  | .immediate => return { value := p, top := at_ }
  | .relative => do
    let x ← v.memRead (v.rb.toInt + p.toInt)
    return { value := x, top := max at_ (v.rb.toInt + p.toInt) }

/-- The range check of a write target (R140): it is made at resolve, not at the write. -/
def checkTarget (t at_ : Int) : Except Abort WriteTarget :=
  if legalAddress t then .ok { target := t, top := at_ } else .error (.raise (.addressError t))

/-- ResolveWrite(i) (R140; R134, R135, R141): an address, one level less than a read operand. Decode refuses mode 1
(R136), so that arm is met by no decoded instruction; it raises the fault decode raises. -/
def VM.resolveWrite (v : VM) (i : Nat) (m : Mode) : Except Abort WriteTarget :=
  match m with
  | .immediate => .error (.raise (.invalidParameterMode i 1))
  | .position => do
    let p ← v.memRead (v.operandAddress i)
    checkTarget p.toInt (v.operandAddress i)
  | .relative => do
    let p ← v.memRead (v.operandAddress i)
    checkTarget (v.rb.toInt + p.toInt) (v.operandAddress i)

end Sys2Proof.Machine
end

