-- ==== Sys2Proof/Machine/Arithmetic.lean ====
section
/-! DEFINITION. ADD and MUL (42_arithmetic.md R146, R147), over the shape they share with LT and EQ. -/

namespace Sys2Proof.Machine

/-- An instruction with two read operands and a write target: every operand is resolved, in order (R114), then
f of the two values is stored (R120). All reads are of the old state (R10). -/
def VM.binary (f : Word → Word → Word) (a b d : Mode) (v : VM) : Except Abort VM := do
  let x ← v.resolveRead 1 a
  let y ← v.resolveRead 2 b
  let t ← v.resolveWrite 3 d
  let touched := (((v.touch v.pc.toInt).touch x.top).touch y.top).touch t.top
  return (touched.store t.target (f x.value y.value)).advance 3

/-- ADD (R146). -/
def execAdd (a b dst : Mode) (s : State) : Host.Outcome State Fault Refusal := s.conclude (s.vm.binary aluSum a b dst)

/-- MUL (R147). -/
def execMul (a b dst : Mode) (s : State) : Host.Outcome State Fault Refusal := s.conclude (s.vm.binary aluProduct a b dst)

end Sys2Proof.Machine
end

