-- ==== Sys2Proof/Machine/Compare.lean ====
section
/-! DEFINITION. LT and EQ (43_compare.md R155, R156). -/

namespace Sys2Proof.Machine

/-- LT (R155). -/
def execLt (a b dst : Mode) (s : State) : Host.Outcome State Fault Refusal := s.conclude (s.vm.binary lessWord a b dst)

/-- EQ (R156). -/
def execEq (a b dst : Mode) (s : State) : Host.Outcome State Fault Refusal := s.conclude (s.vm.binary equalWord a b dst)

end Sys2Proof.Machine
end

