-- ==== Sys2Proof/Machine/Control.lean ====
section
/-! DEFINITION. JT, JF and HALT (45_control.md R170, R171, R172). -/

namespace Sys2Proof.Machine

/-- A conditional jump on an instance: both operands are resolved, taken or not (R114, D8); a taken jump writes its
target's value to pc without any check (R173). -/
def VM.jump (taken : Word → Bool) (c t : Mode) (v : VM) : Except Abort VM := do
  let x ← v.resolveRead 1 c
  let y ← v.resolveRead 2 t
  let touched := ((v.touch v.pc.toInt).touch x.top).touch y.top
  return if taken x.value then { touched with pc := y.value } else touched.advance 2

/-- JT (R170). -/
def execJt (cond target : Mode) (s : State) : Host.Outcome State Fault Refusal := s.conclude (s.vm.jump wordTrue cond target)

/-- JF (R171). -/
def execJf (cond target : Mode) (s : State) : Host.Outcome State Fault Refusal := s.conclude (s.vm.jump wordFalse cond target)

/-- HALT (R172, D12): run_state becomes Halted and pc stays. -/
def execHalt (s : State) : Host.Outcome State Fault Refusal :=
  s.conclude (.ok { s.vm.touch s.vm.pc.toInt with runState := .halted })

end Sys2Proof.Machine
end

