-- ==== Sys2Proof/Machine/InputOutput.lean ====
section
/-! DEFINITION. IN and OUT (44_io.md R160, R161, R163). -/

namespace Sys2Proof.Machine

/-- IN on an instance (R160): the target is resolved first, then the queue is tested (R114, R118, D39). -/
def VM.input (d : Mode) (v : VM) : Except Abort VM := do
  let t ← v.resolveWrite 1 d
  match v.inPop with
  | none => .error .suspend
  | some (x, v') => return (((v'.touch v.pc.toInt).touch t.top).store t.target x).advance 1

/-- OUT on an instance (R161). -/
def VM.output (a : Mode) (v : VM) : Except Abort VM := do
  let x ← v.resolveRead 1 a
  return (((v.touch v.pc.toInt).touch x.top).outPush x.value).advance 1

/-- IN (R160, R163). -/
def execInp (dst : Mode) (s : State) : Host.Outcome State Fault Refusal := s.conclude (s.vm.input dst)

/-- OUT (R161). -/
def execOut (src : Mode) (s : State) : Host.Outcome State Fault Refusal := s.conclude (s.vm.output src)

end Sys2Proof.Machine
end

