-- ==== Sys2Proof/Machine/RelativeBase.lean ====
section
/-! DEFINITION. ARB (46_relative_base.md R180). -/

namespace Sys2Proof.Machine

/-- ARB on an instance (R180): it adds, and the operand is resolved with the old rb (R181). -/
def VM.adjustBase (a : Mode) (v : VM) : Except Abort VM := do
  let x ← v.resolveRead 1 a
  return { (v.touch v.pc.toInt).touch x.top with rb := aluSum v.rb x.value }.advance 1

/-- ARB (R180). -/
def execArb (delta : Mode) (s : State) : Host.Outcome State Fault Refusal := s.conclude (s.vm.adjustBase delta)

end Sys2Proof.Machine
end

