-- ==== Sys2Proof/Machine/Engine.lean ====
section
/-! DEFINITION. The engine (40_pipeline.md R110 to R120): loop guard, fetch, decode, execution; and the run of an
instance (47_vm_instance.md R188 to R191). -/

namespace Sys2Proof.Machine

/-- The loop guard (R111): whether the engine has a step. -/
abbrev VM.canStep (v : VM) : Prop := v.fault = none ∧ v.runState = .running ∧ v.pc.toInt ≤ v.hwm

/-- Fetch (R112). -/
def VM.fetch (v : VM) : Except Abort Word := v.memRead v.pc.toInt

/-- Step (R120), for a state whose guard holds: fetch, decode, then the instruction; a fault of fetch or decode is taken. -/
def State.engineStep (s : State) : Host.Outcome State Fault Refusal :=
  match s.vm.fetch with
  | .error a => s.conclude (.error a)
  | .ok w =>
    match decode w with
    | .error c => s.conclude (.error (.raise c))
    | .ok i => exec i s

/-- Status() (R189). -/
def VM.status (v : VM) : Status :=
  match v.fault with
  | some r => .fault (faultCode r.cause)
  | none =>
    match v.runState with
    | .halted => .halted
    | .waitingForInput => .waitingForInput
    | .running => .ranOff

/-- The output drain (R190). -/
def VM.drain (v : VM) : VM := { v with outq := [] }

/-- The entry of run(): a suspended instance is set Running (R188, R191). -/
def VM.resume (v : VM) : VM :=
  if v.fault = none ∧ v.runState = .waitingForInput then { v with runState := .running } else v

/-- run() issued by the host on the instance in focus begins (R188). -/
def State.startRun (s : State) : State := { s.withVm s.vm.resume with activity := .run, reply := none }

/-- run() issued by the host returns (R188, R189, R190). -/
def State.endRun (s : State) : State :=
  { s.withVm s.vm.drain with activity := .idle, reply := some (.ran s.vm.status s.vm.outq) }

/-- poke_memory(a, x) on an instance (R194); an address outside the range changes nothing (R260). -/
def VM.poke (v : VM) (a : Int) (x : Word) : VM := if legalAddress a then v.store a x else v

/-- Words poked from address a up. -/
def VM.pokeAll (v : VM) (a : Int) : List Word → VM
  | [] => v
  | x :: xs => (v.poke a x).pokeAll (a + 1) xs

/-- The activity in which the engine of the instance in focus runs. -/
def Activity.running : Activity → Activity
  | .idle => .run
  | .run => .run
  | .turn _ => .run
  | .turnRun c => .turnRun c
  | .deliver _ => .run

/-- The machine with these Words where the engine fetches next, ready to fetch them (log 7): poked at pc (at 0 if pc is
negative), no fault latched, Running, a run() in progress. -/
def State.placeAtFetch (s : State) (ws : List Word) : State :=
  let pc : Word := if s.vm.pc.toInt < 0 then 0 else s.vm.pc
  let v := s.vm.pokeAll pc.toInt ws
  { s.withVm { v with pc := pc, runState := .running, fault := none } with activity := s.activity.running }

end Sys2Proof.Machine
end

