-- ==== Sys2Proof/Machine/Router.lean ====
section
/-! DEFINITION. The packet router (48_network.md R212 to R228), in the steps it takes between turns and at the round
boundary. -/

namespace Sys2Proof.Machine

/-- One word triple: destination, x, y (R215). -/
abbrev Packet := Word × Word × Word

/-- Packets cut from the front, three Words at a time, and the 0, 1 or 2 Words left over (R215, R216). -/
def cutPackets : List Word → List Packet × List Word
  | d :: x :: y :: rest => ((d, x, y) :: (cutPackets rest).1, (cutPackets rest).2)
  | rest => ([], rest)

/-- The identifying first input of instance i (R211, D24). -/
def instanceId (i : Nat) : Word := BitVec.ofNat 64 i

/-- One packet sent by the instance in focus: staged for its destination (R217), or put in egress (R218). -/
def State.sendPacket (s : State) (p : Packet) : State :=
  if 0 ≤ p.1.toInt ∧ p.1.toInt < s.size then
    s.modifySlot p.1.toInt.toNat (fun q => { q with stage := q.stage ++ [p.2.1, p.2.2] })
  else { s with egress := s.egress ++ [{ src := s.index, dest := p.1, x := p.2.1, y := p.2.2 }] }

/-- The router goes to the next place, or to the boundary after the last (R212, R224). -/
def State.nextPlace (s : State) (c : RoundCtl) : State :=
  match s.higher with
  | [] => { s with activity := .deliver c }
  | x :: xs => { s with lower := s.lower ++ [s.slot], slot := x, higher := xs, activity := .turn c }

/-- The sentinel (R214): one -1 if the input FIFO is empty. -/
def VM.feedSentinel (v : VM) : VM := if v.inq = [] then v.enqueueInput Config.sentinel else v

/-- Before a turn (R213, R214, R215): a halted instance gets none; any other gets the sentinel test, and its run() begins. -/
def State.beginTurn (s : State) (c : RoundCtl) : State :=
  if s.vm.runState = .halted then s.nextPlace c
  else { s.withVm s.vm.feedSentinel.resume with activity := .turnRun { c with turns := c.turns + 1 } }

/-- run() of a turn has returned (R215 to R218), or has returned a fault, which stops the network (R222). -/
def State.endTurn (s : State) (c : RoundCtl) : State :=
  match s.vm.fault with
  | some r =>
    { s.withVm s.vm.drain with
      netFault := some (s.index, r), activity := .idle, reply := some (.netFault s.index r) }
  | none =>
    let cut := cutPackets (s.slot.partialOut ++ s.vm.outq)
    let kept := { s with slot := { s.slot with vm := s.vm.drain, partialOut := cut.2 } }
    (cut.1.foldl State.sendPacket kept).nextPlace { c with sent := c.sent + cut.1.length }

/-- round() begins, or repeats the network's fault (R222, R224). -/
def State.startRound (s : State) (loop : Bool) : State :=
  match s.netFault with
  | some (i, r) => { s with activity := .idle, reply := some (.netFault i r) }
  | none => { s.rewind with activity := .turn { sent := 0, turns := 0, loop := loop }, reply := none }

/-- The staged Words of a place appended to its input FIFO (R219). -/
def Slot.deliver (q : Slot) : Slot := { q with vm := { q.vm with inq := q.vm.inq ++ q.stage }, stage := [] }

/-- Whether every input FIFO is empty (R220). -/
def State.allInputsEmpty (s : State) : Bool := s.slots.all (fun q => q.vm.inq.isEmpty)

/-- The round boundary (R219, R220, R221): delivery, the idle test, and the return; run_network goes on with another
round unless idle or without turns (R228). -/
def State.endRound (s : State) (c : RoundCtl) : State :=
  let t := s.mapSlots Slot.deliver
  let idle := decide (c.sent = 0) && t.allInputsEmpty
  if c.loop = true ∧ idle = false ∧ c.turns ≠ 0 then t.startRound true
  else { t with activity := .idle, reply := some (.round { sent := c.sent, turns := c.turns, idle := idle }) }

end Sys2Proof.Machine
end

