-- ==== Sys2Proof/Machine/Transact.lean ====
section
/-! DEFINITION. The host's transactions (47_vm_instance.md R185 to R198, 48_network.md R211, R224, R225, R228) and the
program image text (30_encoding.md R93). -/

namespace Sys2Proof.Machine

/-- load(image, PC0, RB0) on an instance (R186). -/
def VM.load (image : List Word) (pc0 rb0 : Word) : VM :=
  { mem := Memory.ofImage 0 image
    hwm := (image.length : Int) - 1
    pc := pc0
    rb := rb0
    inq := []
    outq := []
    runState := .running
    fault := none }

/-- What the host can ask for. `i` is the index of the instance it addresses. -/
inductive HostCmd where
  | load (i : Nat) (image : List Int) (pc0 rb0 : Word)
  | enqueueInput (i : Nat) (v : Word)
  | run (i : Nat)
  | peekMemory (i : Nat) (a : Int)
  | pokeMemory (i : Nat) (a : Int) (v : Word)
  | netInit (n : Nat) (image : List Int)
  | round
  | runNetwork
  | takeEgress
  deriving DecidableEq, Repr

/-- What load accepts: at most ADDR_MAX + 1 values, each a Word (R186, R260). -/
def imageOk (image : List Int) : Bool :=
  decide ((image.length : Int) ≤ Config.addrMax + 1) && image.all (fun v => decide (Config.wordMin ≤ v ∧ v ≤ Config.wordMax))

/-- The machine with this reply. -/
def State.answer (s : State) (r : Reply) : State := { s with reply := some r }

/-- A transaction on instance i. -/
def State.onVm (s : State) (i : Nat) (f : State → State) : Host.Outcome State Fault Refusal :=
  match s.focus i with
  | some t => .next (f t)
  | none => .refused .noSuchVM

/-- load on the instance in focus (R186), or the error of a bad image (R260). -/
def State.loadImage (s : State) (image : List Int) (pc0 rb0 : Word) : State :=
  if imageOk image then (s.withVm (VM.load (image.map wrap) pc0 rb0)).answer .done else s.answer .badImage

/-- peek_memory on the instance in focus (R193): no state changes, hwm included. -/
def State.peek (s : State) (a : Int) : State :=
  if legalAddress a then s.answer (.word (s.vm.mem.read a.toNat)) else s.answer (.addressError a)

/-- poke_memory on the instance in focus (R194, R260). -/
def State.pokeMem (s : State) (a : Int) (x : Word) : State :=
  if legalAddress a then (s.withVm (s.vm.poke a x)).answer .done else s.answer (.addressError a)

/-- Place i after net_init (R211). -/
def freshSlot (image : List Word) (i : Nat) : Slot :=
  { vm := (VM.load image Config.pc0 Config.rb0).enqueueInput (instanceId i), stage := [], partialOut := [] }

/-- net_init(N, image) (R211), for N from 1 to ADDR_MAX + 1, the identifiers a Word can hold (log 9). -/
def State.netInit (s : State) (n : Nat) (image : List Int) : Host.Outcome State Fault Refusal :=
  if n = 0 ∨ Config.addrMax + 1 < n then .refused .badNetworkSize
  else if imageOk image then
    .next
      { lower := []
        slot := freshSlot (image.map wrap) 0
        higher := (List.range' 1 (n - 1)).map (freshSlot (image.map wrap))
        egress := []
        netFault := none
        activity := .idle
        reply := some .done }
  else .next (s.answer .badImage)

/-- One transaction of the host; refused while another is in progress (R197, R225, R278). -/
def transact (c : HostCmd) (s : State) : Host.Outcome State Fault Refusal :=
  match s.activity with
  | .idle =>
    match c with
    | .load i image pc0 rb0 => s.onVm i (fun t => t.loadImage image pc0 rb0)
    | .enqueueInput i v => s.onVm i (fun t => (t.withVm (t.vm.enqueueInput v)).answer .done)
    | .run i => s.onVm i State.startRun
    | .peekMemory i a => s.onVm i (fun t => t.peek a)
    | .pokeMemory i a v => s.onVm i (fun t => t.pokeMem a v)
    | .netInit n image => s.netInit n image
    | .round => .next (s.startRound false)
    | .runNetwork => .next (s.startRound true)
    | .takeEgress => .next { s.answer (.egress s.egress) with egress := [] }
  | .run => .refused .transactionInProgress
  | .turn _ => .refused .transactionInProgress
  | .turnRun _ => .refused .transactionInProgress
  | .deliver _ => .refused .transactionInProgress

/-! ### The program image text (R93, D20) -/

/-- The value of a decimal digit. -/
def digitValue (c : Char) : Option Nat := if 48 ≤ c.toNat ∧ c.toNat ≤ 57 then some (c.toNat - 48) else none

/-- digit*, read on from the value n. -/
def parseDigits : Nat → List Char → Option Nat
  | n, [] => some n
  | n, c :: cs =>
    match digitValue c with
    | some d => parseDigits (10 * n + d) cs
    | none => none

/-- digit+ -/
def parseNat : List Char → Option Nat
  | [] => none
  | c :: cs => parseDigits 0 (c :: cs)

/-- integer := [ "-" ] digit+, in the range of a Word. -/
def parseInteger : List Char → Option Int
  | '-' :: cs => (parseNat cs).bind (fun n => if Config.wordMin ≤ -(n : Int) then some (-(n : Int)) else none)
  | cs => (parseNat cs).bind (fun n => if (n : Int) ≤ Config.wordMax then some (n : Int) else none)

/-- The fields between the commas; `field` is what has been read of the current one, last character first. -/
def splitFields : List Char → List Char → List (List Char)
  | field, [] => [field.reverse]
  | field, ',' :: cs => field.reverse :: splitFields [] cs
  | field, c :: cs => splitFields (c :: field) cs

/-- The text without the one optional final newline. -/
def dropFinalNewline : List Char → List Char
  | [] => []
  | ['\n'] => []
  | c :: cs => c :: dropFinalNewline cs

/-- image := integer ( "," integer )* [ newline ]; anything else is refused. -/
def parseImage (text : List Char) : Option (List Int) := (splitFields [] (dropFinalNewline text)).mapM parseInteger

end Sys2Proof.Machine
end

