-- ==== Sys2Proof/Machine/Step.lean ====
section
/-! DEFINITION. One step of whatever moves next: the engine of the instance in focus, or the router. -/

namespace Sys2Proof.Machine

/-- One step (R120, R188, R224). With no transaction in progress the host has the move and there is no step. -/
def step (s : State) : Host.Outcome State Fault Refusal :=
  match s.activity with
  | .idle => .fault .noTransaction
  | .run => if s.vm.canStep then s.engineStep else .next s.endRun
  | .turn c => .next (s.beginTurn c)
  | .turnRun c => if s.vm.canStep then s.engineStep else .next (s.endTurn c)
  | .deliver c => .next (s.endRound c)

/-- The state with a table row's words stored where the engine fetches next (log 7). -/
def State.withFetchWord (s : State) (nbits w : Nat) : State := s.placeAtFetch (tableWords nbits w)

end Sys2Proof.Machine
end

