-- ==== Sys2Proof/Safety.lean ====
section
/-! DEFINITION. What every reachable state satisfies (10_state.md R36), and the words the statements are written in. -/

namespace Sys2Proof.Machine

/-- Every cell that holds something else than 0 lies at or below h (R36 (a)). -/
def Memory.boundedBy (m : Memory) (h : Int) : Prop := ∀ a : Nat, m.read a ≠ 0 → (a : Int) ≤ h

/-- The invariant of one instance: the range of hwm (R27), R36 (a), (b), (f), and the memory's canonical form. -/
structure VM.Inv (v : VM) : Prop where
  memCanonical : v.mem.wf = true
  hwmLow : -1 ≤ v.hwm
  hwmHigh : v.hwm ≤ Config.addrMax
  memBelowHwm : v.mem.boundedBy v.hwm
  faultRunning : v.fault ≠ none → v.runState = .running
  waiting : v.runState = .waitingForInput → v.fault = none ∧ 0 ≤ v.pc.toInt ∧ v.pc.toInt ≤ v.hwm

/-- The invariant of the machine: every instance's, R36 (d), and R36 (e) as far as R222 lets it hold (log 11): between
rounds nothing is staged unless the network's fault is latched; with that latch set no round is in progress. -/
structure State.Inv (s : State) : Prop where
  instances : ∀ q ∈ s.slots, q.vm.Inv
  partials : ∀ q ∈ s.slots, q.partialOut.length ≤ 2
  staged : s.netFault = none → s.activity = .idle ∨ s.activity = .run → ∀ q ∈ s.slots, q.stage = []
  noRoundAfterFault : s.netFault ≠ none → s.activity = .idle ∨ s.activity = .run

/-- The engine of the instance in focus has the next step (R111): a run() is in progress and its guard holds. -/
def State.engineHasStep (s : State) : Prop :=
  (s.activity = .run ∨ ∃ c, s.activity = .turnRun c) ∧ s.vm.canStep

/-- Operand k of an instruction, resolved as what the table of R98 says it is: the write target, or a read operand. -/
def VM.checkOperand (v : VM) (i : Instr) (k : Nat) (m : Mode) : Except Abort Unit :=
  if writeTargetTable.lookup i.opcode = some k then (v.resolveWrite k m).map (fun _ => ())
  else (v.resolveRead k m).map (fun _ => ())

/-- The operands from the k-th on, in order (R114, R247): the first that does not resolve says why. -/
def VM.checkOperands (v : VM) (i : Instr) : Nat → List Mode → Except Abort Unit
  | _, [] => .ok ()
  | k, m :: ms =>
    match v.checkOperand i k m with
    | .error e => .error e
    | .ok _ => VM.checkOperands v i (k + 1) ms

/-- The state k steps later, if there is one. -/
def runSteps : Nat → State → Option State
  | 0, s => some s
  | k + 1, s =>
    match step s with
    | .next t => runSteps k t
    | .fault _ => none
    | .refused _ => none

/-- A transaction from its issue to its return. -/
def Completes (c : HostCmd) (s t : State) : Prop :=
  ∃ u k, transact c s = .next u ∧ runSteps k u = some t ∧ t.activity = .idle

/-- Transactions one after the other, each from its issue to its return. -/
def CompletesAll : List HostCmd → State → State → Prop
  | [], s, t => s = t
  | c :: cs, s, t => ∃ u, Completes c s u ∧ CompletesAll cs u t

/-- enqueue_input of each value in turn, then run(), on instance i. -/
def feedAndRun (i : Nat) (xs : List Word) : List HostCmd := xs.map (HostCmd.enqueueInput i) ++ [HostCmd.run i]

end Sys2Proof.Machine
end

