-- ==== Sys2Proof/Certificates/Slice0/Obligations.lean ====
section
/-! DEFINITION. The statements for the provers. Each docstring names the rule or the decision of the spec that it
formalises. "Next state" is the outcome `.next`. -/

open Sys2Proof Sys2Proof.Machine

/-! ### Encoding -/

/-- Opcode words written out from R81 and R96, one or more of each family, decode to the instruction they stand for, and
words that R97 says fault do so. -/
def Obligations.WrittenWordsDecode : Prop :=
  decode 1002 = .ok (.mul .position .immediate .position) ∧
  decode 21101 = .ok (.add .immediate .immediate .relative) ∧
  decode 203 = .ok (.inp .relative) ∧
  decode 104 = .ok (.out .immediate) ∧
  decode 1205 = .ok (.jt .relative .immediate) ∧
  decode 2106 = .ok (.jf .immediate .relative) ∧
  decode 20207 = .ok (.lt .relative .position .relative) ∧
  decode 1208 = .ok (.eq .relative .immediate .position) ∧
  decode 9 = .ok (.arb .position) ∧
  decode 99 = .ok .halt ∧
  decode 100 = .error (.badOpcode 100) ∧
  decode 10001 = .error (.invalidParameterMode 3 1)

/-- Every well-formed instruction is read back from its canonical word (R81, R94, R98). -/
def Obligations.DecodeInvertsEncode : Prop :=
  ∀ i : Instr, i.wellFormed = true → decode (encode i) = .ok i

/-- Exactly which words decode to an instruction: the non-negative ones whose low arity + 2 digits are its canonical word;
the digits above are not examined (R89, R98). Rests on D5 and D6. -/
def Obligations.DecodeReadsExactlyTheDeclaredDigits : Prop :=
  ∀ (w : Word) (i : Instr),
    decode w = .ok i ↔ (0 ≤ w.toInt ∧ i.wellFormed = true ∧ w.toNat % 10 ^ (i.arity + 2) = i.encodeNat)

/-- Exactly which words are BadOpcode: the negative ones (D5) and those whose opcode is none of the ten, whatever the
higher digits (R82, R87). -/
def Obligations.BadOpcodeExactlyOutsideTheTable : Prop :=
  ∀ w b : Word,
    decode w = .error (.badOpcode b) ↔
      (b = w ∧ (w.toInt < 0 ∨ arityTable.lookup (w.toNat % 100) = none))

/-- Exactly which words are InvalidParameterMode, and what is reported (R88, R98, D7): the lowest-numbered declared
operand whose digit is above 2, or is 1 on the write target. -/
def Obligations.InvalidModeReportsTheLowestOperand : Prop :=
  ∀ (w : Word) (k d : Nat),
    decode w = .error (.invalidParameterMode k d) ↔
      ∃ n, 0 ≤ w.toInt ∧ arityTable.lookup (w.toNat % 100) = some n ∧ 1 ≤ k ∧ k ≤ n ∧
        d = w.toNat / 10 ^ (k + 1) % 10 ∧
        (2 < d ∨ (d = 1 ∧ writeTargetTable.lookup (w.toNat % 100) = some k)) ∧
        ∀ j, 1 ≤ j → j < k →
          w.toNat / 10 ^ (j + 1) % 10 ≤ 2 ∧
            ¬(w.toNat / 10 ^ (j + 1) % 10 = 1 ∧ writeTargetTable.lookup (w.toNat % 100) = some j)

/-! ### Operands -/

/-- R131, R132, R133, R139: a read operand. Its word p is the cell at pc + i; its value is the cell at p, p itself, or the
cell at the exact sum rb + p; AddressError carries the exact address outside the range. -/
def Obligations.ReadOperandResolution : Prop :=
  ∀ (v : VM) (i : Nat),
    let at_ : Int := v.pc.toInt + i
    let p : Word := v.mem.read at_.toNat
    (¬legalAddress at_ → ∀ m, v.resolveRead i m = .error (.raise (.addressError at_))) ∧
    (legalAddress at_ →
      v.resolveRead i .immediate = .ok ⟨p, at_⟩ ∧
      (0 ≤ p.toInt → v.resolveRead i .position = .ok ⟨v.mem.read p.toInt.toNat, max at_ p.toInt⟩) ∧
      (p.toInt < 0 → v.resolveRead i .position = .error (.raise (.addressError p.toInt))) ∧
      (legalAddress (v.rb.toInt + p.toInt) →
        v.resolveRead i .relative =
          .ok ⟨v.mem.read (v.rb.toInt + p.toInt).toNat, max at_ (v.rb.toInt + p.toInt)⟩) ∧
      (¬legalAddress (v.rb.toInt + p.toInt) →
        v.resolveRead i .relative = .error (.raise (.addressError (v.rb.toInt + p.toInt)))))

/-- R134, R135: a write target. The address is the operand word p, or the exact sum rb + p; the cell there is not read (no
Word but the operand word enters the answer); AddressError carries the exact address outside the range. Mode 1 is not
among the forms: Decode refuses it (R136; InvalidModeReportsTheLowestOperand). -/
def Obligations.WriteTargetResolution : Prop :=
  ∀ (v : VM) (i : Nat),
    let at_ : Int := v.pc.toInt + i
    let p : Word := v.mem.read at_.toNat
    (¬legalAddress at_ → ∀ m, m ≠ Mode.immediate → v.resolveWrite i m = .error (.raise (.addressError at_))) ∧
    (legalAddress at_ →
      (0 ≤ p.toInt → v.resolveWrite i .position = .ok ⟨p.toInt, at_⟩) ∧
      (p.toInt < 0 → v.resolveWrite i .position = .error (.raise (.addressError p.toInt))) ∧
      (legalAddress (v.rb.toInt + p.toInt) → v.resolveWrite i .relative = .ok ⟨v.rb.toInt + p.toInt, at_⟩) ∧
      (¬legalAddress (v.rb.toInt + p.toInt) →
        v.resolveWrite i .relative = .error (.raise (.addressError (v.rb.toInt + p.toInt)))))

/-- R138: with rb = 0 the position and the relative mode are the same, for write targets and for read operands: same
address, same value, same faults. -/
def Obligations.PositionEqualsRelativeAtBaseZero : Prop :=
  ∀ (v : VM) (i : Nat), v.rb = 0 →
    v.resolveWrite i .position = v.resolveWrite i .relative ∧ v.resolveRead i .position = v.resolveRead i .relative

/-- R181: a relative write target of operand word k names the cell at rb + k, with the rb of before the instruction, and
no other: every other cell, the one at k among them unless rb = 0, keeps its Word, whatever the instruction's outcome. -/
def Obligations.RelativeStoreLandsAtBasePlusOffset : Prop :=
  ∀ (i : Instr) (s t : State) (k : Word),
    i.writeMode = some .relative → exec i s = .next t →
    s.vm.mem.read (s.vm.pc.toInt + i.arity).toNat = k →
    (∀ r, s.vm.resolveWrite i.arity .relative = .ok r → r.target = s.vm.rb.toInt + k.toInt) ∧
    ∀ b : Nat, (b : Int) ≠ s.vm.rb.toInt + k.toInt → t.vm.mem.read b = s.vm.mem.read b

/-! ### What each instruction does: completion and result -/

/-- R146, R147, R145: ADD and MUL complete whenever their operands resolve, store the 64-bit sum, the low 64 bits of
the product (D2), at the target, and advance pc by 4. The fetch at pc and every access of the operands and the target
raise hwm: R55 (b), R117, D10 (log 17, unsafe); where the loop guard fails, so that no step runs the instruction, that
they do is the model's choice (log 13, DEDUCED). -/
def Obligations.AddMulStoreTheWrappedResult : Prop :=
  ∀ (s : State) (a b d : Mode) (x y : ReadOperand) (t : WriteTarget),
    s.vm.resolveRead 1 a = .ok x → s.vm.resolveRead 2 b = .ok y → s.vm.resolveWrite 3 d = .ok t →
    exec (.add a b d) s = .next (s.withVm { s.vm with
      mem := s.vm.mem.write t.target.toNat (x.value + y.value)
      hwm := max s.vm.hwm (max (max s.vm.pc.toInt t.target) (max (max x.top y.top) t.top))
      pc := s.vm.pc + 4 }) ∧
    exec (.mul a b d) s = .next (s.withVm { s.vm with
      mem := s.vm.mem.write t.target.toNat (x.value * y.value)
      hwm := max s.vm.hwm (max (max s.vm.pc.toInt t.target) (max (max x.top y.top) t.top))
      pc := s.vm.pc + 4 })

/-- R155, R156, R157: LT and EQ complete whenever their operands resolve, store 1 or 0, and advance pc by 4. LT is
signed (D38). The fetch at pc and every access of the operands and the target raise hwm: R55 (b), R117, D10 (log 17,
unsafe); where the loop guard fails, so that no step runs the instruction, that they do is the model's choice (log 13,
DEDUCED). -/
def Obligations.LtEqStoreOneOrZero : Prop :=
  ∀ (s : State) (a b d : Mode) (x y : ReadOperand) (t : WriteTarget),
    s.vm.resolveRead 1 a = .ok x → s.vm.resolveRead 2 b = .ok y → s.vm.resolveWrite 3 d = .ok t →
    exec (.lt a b d) s = .next (s.withVm { s.vm with
      mem := s.vm.mem.write t.target.toNat (if x.value.slt y.value then 1 else 0)
      hwm := max s.vm.hwm (max (max s.vm.pc.toInt t.target) (max (max x.top y.top) t.top))
      pc := s.vm.pc + 4 }) ∧
    exec (.eq a b d) s = .next (s.withVm { s.vm with
      mem := s.vm.mem.write t.target.toNat (if x.value = y.value then 1 else 0)
      hwm := max s.vm.hwm (max (max s.vm.pc.toInt t.target) (max (max x.top y.top) t.top))
      pc := s.vm.pc + 4 })

/-- R160: IN completes whenever its target resolves and the input FIFO is not empty: it moves the head of the FIFO to
the target and advances pc by 2. The fetch at pc and every access of the target raise hwm: R55 (b), R117, D10 (log 17,
unsafe); where the loop guard fails, so that no step runs the instruction, that they do is the model's choice (log 13,
DEDUCED). -/
def Obligations.InStoresTheHeadOfTheInput : Prop :=
  ∀ (s : State) (d : Mode) (t : WriteTarget) (x : Word) (xs : List Word),
    s.vm.resolveWrite 1 d = .ok t → s.vm.inq = x :: xs →
    exec (.inp d) s = .next (s.withVm { s.vm with
      mem := s.vm.mem.write t.target.toNat x
      hwm := max s.vm.hwm (max (max s.vm.pc.toInt t.target) t.top)
      pc := s.vm.pc + 2
      inq := xs })

/-- R163: IN with an empty input FIFO. run_state becomes WaitingForInput and nothing else changes; the run() in progress
then returns with that status, which is neither Halted nor a fault; run() called again sets Running and executes the same
instruction again from its fetch (the instance is as before the first attempt, but for the drained outputs); and if the
host supplies a Word first, that IN completes with it. -/
def Obligations.InSuspendsOnEmptyInput : Prop :=
  ∀ (s : State) (d : Mode) (r : WriteTarget),
    s.activity = .run → s.vm.canStep → s.vm.resolveWrite 1 d = .ok r → s.vm.inq = [] →
    let waiting := s.withVm { s.vm with runState := .waitingForInput }
    exec (.inp d) s = .next waiting ∧
    ∃ u, step waiting = .next u ∧ u.activity = .idle ∧ u.reply = some (.ran .waitingForInput s.vm.outq) ∧
      u.vm = { s.vm with runState := .waitingForInput, outq := [] } ∧
      (∃ w, transact (.run s.index) u = .next w ∧ w.activity = .run ∧ w.vm = { s.vm with outq := [] }) ∧
      ∀ x : Word, ∃ e w z, transact (.enqueueInput s.index x) u = .next e ∧ transact (.run s.index) e = .next w ∧
        w.activity = .run ∧ w.vm = { s.vm with inq := [x], outq := [] } ∧ exec (.inp d) w = .next z ∧
        z.vm.mem = s.vm.mem.write r.target.toNat x ∧ z.vm.inq = [] ∧ z.vm.pc = s.vm.pc + 2

/-- R161: OUT completes whenever its operand resolves: it appends the value to the output FIFO and advances pc by 2;
it never suspends. The fetch at pc and every access of the operand raise hwm: R55 (b), R117, D10 (log 17, unsafe);
where the loop guard fails, so that no step runs the instruction, that they do is the model's choice (log 13,
DEDUCED). -/
def Obligations.OutAppendsTheValue : Prop :=
  ∀ (s : State) (a : Mode) (x : ReadOperand),
    s.vm.resolveRead 1 a = .ok x →
    exec (.out a) s = .next (s.withVm { s.vm with
      hwm := max s.vm.hwm (max s.vm.pc.toInt x.top)
      outq := s.vm.outq ++ [x.value]
      pc := s.vm.pc + 2 })

/-- R170, R171: JT and JF complete whenever both operands resolve (both are resolved, taken or not: D8): pc becomes
the second operand's value, whole and unchecked (R173), if the first is not 0 (JT), is 0 (JF), else pc advances by 3.
The fetch at pc and every access of the operands, taken or not, raise hwm: R55 (b), R117, D10 (log 17, unsafe); where
the loop guard fails, so that no step runs the instruction, that they do is the model's choice (log 13, DEDUCED). -/
def Obligations.JumpsTakeTheSecondOperand : Prop :=
  ∀ (s : State) (c t : Mode) (x y : ReadOperand),
    s.vm.resolveRead 1 c = .ok x → s.vm.resolveRead 2 t = .ok y →
    exec (.jt c t) s = .next (s.withVm { s.vm with
      hwm := max s.vm.hwm (max s.vm.pc.toInt (max x.top y.top))
      pc := if x.value ≠ 0 then y.value else s.vm.pc + 3 }) ∧
    exec (.jf c t) s = .next (s.withVm { s.vm with
      hwm := max s.vm.hwm (max s.vm.pc.toInt (max x.top y.top))
      pc := if x.value = 0 then y.value else s.vm.pc + 3 })

/-- R180: ARB completes whenever its operand resolves: rb becomes the 64-bit sum (D2) and pc advances by 2. The fetch
at pc and every access of the operand raise hwm: R55 (b), R117, D10 (log 17, unsafe); where the loop guard fails, so
that no step runs the instruction, that they do is the model's choice (log 13, DEDUCED). -/
def Obligations.ArbAddsToTheBase : Prop :=
  ∀ (s : State) (a : Mode) (x : ReadOperand),
    s.vm.resolveRead 1 a = .ok x →
    exec (.arb a) s = .next (s.withVm { s.vm with
      hwm := max s.vm.hwm (max s.vm.pc.toInt x.top)
      rb := s.vm.rb + x.value
      pc := s.vm.pc + 2 })

/-- R172: HALT always completes: run_state becomes Halted, pc stays (D12), both FIFOs keep what they hold; the run()
in progress then returns Halted with the outputs. The fetch at pc raises hwm: R55 (b), R117, D10 (log 17, unsafe);
where the loop guard fails (pc beyond hwm among the reasons), so that no step runs the HALT, that it does is the
model's choice (log 13, DEDUCED). -/
def Obligations.HaltStopsInPlace : Prop :=
  ∀ s : State,
    exec .halt s = .next (s.withVm { s.vm with hwm := max s.vm.hwm s.vm.pc.toInt, runState := .halted }) ∧
    (s.activity = .run → s.vm.fault = none →
      ∃ t u, exec .halt s = .next t ∧ step t = .next u ∧ u.activity = .idle ∧
        u.reply = some (.ran .halted s.vm.outq) ∧ u.vm.inq = s.vm.inq ∧ u.vm.outq = [])

/-- R175, R116: the sequential successor. An instruction that completes (no fault, no suspend) leaves pc as it is if it is
HALT (D12); if it is neither HALT nor a taken jump, at pc + 1 + arity (the sum wraps, D4); if it is a taken jump, at its second
operand's value. -/
def Obligations.SequentialSuccessor : Prop :=
  ∀ (i : Instr) (s t : State),
    s.vm.fault = none → s.vm.runState = .running → exec i s = .next t →
    t.vm.fault = none → t.vm.runState ≠ .waitingForInput →
    (i = .halt ∧ t.vm.pc = s.vm.pc) ∨
      (i ≠ .halt ∧ t.vm.pc = s.vm.pc + BitVec.ofNat 64 (1 + i.arity) ∧
        ∀ c m x, s.vm.resolveRead 1 c = .ok x →
          ¬(i = .jt c m ∧ x.value ≠ 0) ∧ ¬(i = .jf c m ∧ x.value = 0)) ∨
      ∃ c m x y, s.vm.resolveRead 1 c = .ok x ∧ s.vm.resolveRead 2 m = .ok y ∧ t.vm.pc = y.value ∧
        ((i = .jt c m ∧ x.value ≠ 0) ∨ (i = .jf c m ∧ x.value = 0))

/-! ### Frames -/

/-- The frame of the instructions with a write target (ADD, MUL, IN, LT, EQ; R35, R149, and for a fault or a suspend R117,
D9). Whatever the outcome: outside
the instance in focus nothing changes; rb and outq are unchanged; only IN changes inq or run_state. For every address the
resolver gives as the target, every other cell reads as before; if it gives none, or the instruction faults or suspends,
every cell does. -/
def Obligations.StoringInstructionsFrame : Prop :=
  ∀ (i : Instr) (d : Mode) (s t : State),
    i.writeMode = some d → exec i s = .next t →
    t = s.withVm t.vm ∧ t.vm.rb = s.vm.rb ∧ t.vm.outq = s.vm.outq ∧
    ((∀ m, i ≠ .inp m) → t.vm.inq = s.vm.inq ∧ t.vm.runState = s.vm.runState) ∧
    (∀ r, s.vm.resolveWrite i.arity d = .ok r →
      ∀ a : Nat, a ≠ r.target.toNat → t.vm.mem.read a = s.vm.mem.read a) ∧
    ((∀ r, s.vm.resolveWrite i.arity d ≠ .ok r) → ∀ a : Nat, t.vm.mem.read a = s.vm.mem.read a) ∧
    (t.vm.fault ≠ s.vm.fault ∨ t.vm.runState ≠ s.vm.runState → ∀ a : Nat, t.vm.mem.read a = s.vm.mem.read a)

/-- The frame of the instructions without a write target (OUT, JT, JF, ARB, HALT; R35): every cell reads as before, the
input FIFO is unchanged, and only OUT changes outq, only ARB rb, only HALT run_state. -/
def Obligations.NonStoringInstructionsFrame : Prop :=
  ∀ (i : Instr) (s t : State),
    i.writeMode = none → exec i s = .next t →
    t = s.withVm t.vm ∧ (∀ a : Nat, t.vm.mem.read a = s.vm.mem.read a) ∧ t.vm.inq = s.vm.inq ∧
    ((∀ m, i ≠ .out m) → t.vm.outq = s.vm.outq) ∧
    ((∀ m, i ≠ .arb m) → t.vm.rb = s.vm.rb) ∧
    (i ≠ .halt → t.vm.runState = s.vm.runState)

/-- R182, and the instruction column of R35 for rb: of all that can happen (a step of any agent, a transaction of the
host) only ARB, load and net_init change the relative base of an instance. -/
def Obligations.OnlyArbAndLoadChangeTheBase : Prop :=
  (∀ (s t : State) (j : Nat) (q q' : Slot),
    step s = .next t → s.slots[j]? = some q → t.slots[j]? = some q' → q'.vm.rb ≠ q.vm.rb →
      j = s.index ∧ s.engineHasStep ∧ ∃ w m, s.vm.fetch = .ok w ∧ decode w = .ok (.arb m)) ∧
  (∀ (c : HostCmd) (s t : State) (j : Nat) (q q' : Slot),
    transact c s = .next t → s.slots[j]? = some q → t.slots[j]? = some q' → q'.vm.rb ≠ q.vm.rb →
      (∃ image pc0 rb0, c = .load j image pc0 rb0) ∨ ∃ n image, c = .netInit n image)

/-- R25: the transitions of run_state, and nothing else changes it. A step: a starved IN sets WaitingForInput, HALT sets
Halted, the run() of a turn entered in WaitingForInput sets Running. A transaction: load (and net_init, which loads) sets
Running, run() entered in WaitingForInput sets Running. -/
def Obligations.RunStateTransitions : Prop :=
  (∀ (s t : State) (j : Nat) (q q' : Slot),
    step s = .next t → s.slots[j]? = some q → t.slots[j]? = some q' → q'.vm.runState ≠ q.vm.runState →
      j = s.index ∧
        ((s.engineHasStep ∧ q.vm.inq = [] ∧ q'.vm = { q.vm with runState := .waitingForInput } ∧
            ∃ w d, q.vm.fetch = .ok w ∧ decode w = .ok (.inp d)) ∨
          (s.engineHasStep ∧ q'.vm.runState = .halted ∧ ∃ w, q.vm.fetch = .ok w ∧ decode w = .ok .halt) ∨
          ((∃ c, s.activity = .turn c) ∧ q.vm.runState = .waitingForInput ∧ q'.vm.runState = .running))) ∧
  (∀ (c : HostCmd) (s t : State) (j : Nat) (q q' : Slot),
    transact c s = .next t → s.slots[j]? = some q → t.slots[j]? = some q' → q'.vm.runState ≠ q.vm.runState →
      q'.vm.runState = .running ∧
        ((∃ image pc0 rb0, c = .load j image pc0 rb0) ∨ (∃ n image, c = .netInit n image) ∨
          (c = .run j ∧ q.vm.runState = .waitingForInput)))

/-- R27, R55: hwm is never lowered but by load (and net_init, which loads). -/
def Obligations.HighWaterMarkNeverFalls : Prop :=
  (∀ (s t : State) (j : Nat) (q q' : Slot),
    step s = .next t → s.slots[j]? = some q → t.slots[j]? = some q' → q.vm.hwm ≤ q'.vm.hwm) ∧
  (∀ (c : HostCmd) (s t : State) (j : Nat) (q q' : Slot),
    transact c s = .next t → s.slots[j]? = some q → t.slots[j]? = some q' → q'.vm.hwm < q.vm.hwm →
      (∃ image pc0 rb0, c = .load j image pc0 rb0) ∨ ∃ n image, c = .netInit n image)

/-! ### The pipeline and its faults -/

/-- R120: when the engine has the next step and the word at pc decodes to i, the step is i's execution. -/
def Obligations.StepRunsTheDecodedInstruction : Prop :=
  ∀ (s : State) (i : Instr),
    s.engineHasStep → 0 ≤ s.vm.pc.toInt → decode (s.vm.mem.read s.vm.pc.toInt.toNat) = .ok i →
    step s = exec i s

/-- R112, R247 (1) to (3): a fault of the fetch, then a fault of decode, is taken before any operand is read: only the
latch changes, with the word absent if the fetch itself raised (R246). -/
def Obligations.FetchAndDecodeFaultsComeFirst : Prop :=
  ∀ s : State, s.engineHasStep →
    (s.vm.pc.toInt < 0 →
      step s = .next (s.withVm { s.vm with
        fault := some { cause := .addressError s.vm.pc.toInt, pc := s.vm.pc, word := none } })) ∧
    (∀ c, 0 ≤ s.vm.pc.toInt → decode (s.vm.mem.read s.vm.pc.toInt.toNat) = .error c →
      step s = .next (s.withVm { s.vm with
        fault := some { cause := c, pc := s.vm.pc, word := some (s.vm.mem.read s.vm.pc.toInt.toNat) } }))

/-- R114, R247 (4), (5) (D7, D8): the operands are resolved in order and the first that does not resolve is the fault taken,
whatever the later ones and whatever the input FIFO holds; only the latch changes (R117, R248, D9), and the record is R246's. If
all resolve, nothing faults. It holds of ill-formed terms too, which no word decodes to: that their immediate write target
faults in its turn is the model's choice (log 10, DESIGN CHOICE), since R247 puts the mode fault of such a word first. -/
def Obligations.FirstBadOperandIsTheFault : Prop :=
  ∀ (i : Instr) (s : State),
    (∀ c, s.vm.checkOperands i 1 i.modes = .error (.raise c) →
      exec i s = .next (s.withVm { s.vm with
        fault := some
          { cause := c, pc := s.vm.pc
            word := if 0 ≤ s.vm.pc.toInt then some (s.vm.mem.read s.vm.pc.toInt.toNat) else none } })) ∧
    (s.vm.checkOperands i 1 i.modes = .ok () → ∀ t, exec i s = .next t → t.vm.fault = s.vm.fault)

/-- R248, R117 (D9): faults are precise. If a step of the engine latches a fault then nothing but the latch changed, the
record holds the pc of the faulting instruction, and the engine has no further step. -/
def Obligations.FaultsArePrecise : Prop :=
  ∀ (s t : State) (r : FaultRecord),
    s.engineHasStep → step s = .next t → t.vm.fault = some r →
    t = s.withVm { s.vm with fault := some r } ∧ r.pc = s.vm.pc ∧ ¬t.vm.canStep

/-- R117, R125: what a step of the engine can be. It faults, changing the latch only (D9); or it suspends, changing run_state
only, which only an IN with an empty input FIFO does (R118); or it halts, and pc stays (R116, R172, D12); or it goes on with no
fault and still Running, hwm not lowered (R55). -/
def Obligations.StepOutcomes : Prop :=
  ∀ s : State, s.engineHasStep →
    ∃ t, step s = .next t ∧ t = s.withVm t.vm ∧
      ((∃ r, t.vm = { s.vm with fault := some r }) ∨
        (t.vm = { s.vm with runState := .waitingForInput } ∧ s.vm.inq = [] ∧
          ∃ w d, s.vm.fetch = .ok w ∧ decode w = .ok (.inp d)) ∨
        (t.vm.fault = none ∧ t.vm.runState = .halted ∧ t.vm.pc = s.vm.pc ∧
          ∃ w, s.vm.fetch = .ok w ∧ decode w = .ok .halt) ∨
        (t.vm.fault = none ∧ t.vm.runState = .running ∧ s.vm.hwm ≤ t.vm.hwm))

/-- R26, R251: a latched fault is cleared by load alone (net_init loads): no step of any agent and no other transaction
changes it once it is set. -/
def Obligations.OnlyLoadClearsAFault : Prop :=
  (∀ (s t : State) (j : Nat) (q q' : Slot),
    step s = .next t → s.slots[j]? = some q → t.slots[j]? = some q' → q.vm.fault ≠ none →
      q'.vm.fault = q.vm.fault) ∧
  (∀ (c : HostCmd) (s t : State) (j : Nat) (q q' : Slot),
    transact c s = .next t → s.slots[j]? = some q → t.slots[j]? = some q' → q.vm.fault ≠ none →
      q'.vm.fault ≠ q.vm.fault → (∃ image pc0 rb0, c = .load j image pc0 rb0) ∨ ∃ n image, c = .netInit n image)

/-- R66, R62: a Word stored by an instruction is what a later fetch at that address reads, with no delay: in the state after
a completed store, jumping there fetches the stored Word. -/
def Obligations.StoreIsSeenByTheNextFetch : Prop :=
  ∀ (s t : State) (a b d : Mode) (x y : ReadOperand) (r : WriteTarget),
    s.vm.mem.wf = true →
    s.vm.resolveRead 1 a = .ok x → s.vm.resolveRead 2 b = .ok y → s.vm.resolveWrite 3 d = .ok r →
    exec (.add a b d) s = .next t →
    ∀ p : Word, p.toInt = r.target → ({ t.vm with pc := p } : VM).fetch = .ok (x.value + y.value)

/-- R124, R111, R188 to R190: with a run() of the host in progress and no step for the engine (a fault is latched, the
instance is not Running, or pc is beyond hwm), the next step is the return: the status by R189 in its order of tests, all
outputs handed over oldest first and the output FIFO emptied; nothing else of the instance changes. -/
def Obligations.RunReturnsWhenTheGuardFails : Prop :=
  ∀ s : State, s.activity = .run → ¬s.vm.canStep →
    ∃ t st, step s = .next t ∧ t.activity = .idle ∧ t.reply = some (.ran st s.vm.outq) ∧
      t.slots = s.lower ++ { s.slot with vm := { s.vm with outq := [] } } :: s.higher ∧
      t.egress = s.egress ∧ t.netFault = s.netFault ∧
      (∀ r, s.vm.fault = some r → st = .fault (faultCode r.cause)) ∧
      (s.vm.fault = none → s.vm.runState = .halted → st = .halted) ∧
      (s.vm.fault = none → s.vm.runState = .waitingForInput → st = .waitingForInput) ∧
      (s.vm.fault = none → s.vm.runState = .running → st = .ranOff ∧ s.vm.hwm < s.vm.pc.toInt)

/-- R124: no step without Running. The drain is R188's and R190's, with a fault latched by D15 (log 17); that enqueue_input is
accepted on a halted or faulted instance is D36. With the instance halted, waiting for input, or with a fault latched, the engine executes
nothing: a step of the run() in progress only drains the outputs; and enqueue_input does not resume it. -/
def Obligations.NoStepWithoutRunning : Prop :=
  ∀ s : State, s.vm.runState ≠ .running ∨ s.vm.fault ≠ none →
    ¬s.engineHasStep ∧
    ((s.activity = .run ∨ ∃ c, s.activity = .turnRun c) →
      ∃ t q, step s = .next t ∧ t.slots[s.index]? = some q ∧ q.vm = { s.vm with outq := [] }) ∧
    (s.activity = .idle →
      ∀ x : Word, ∃ t, transact (.enqueueInput s.index x) s = .next t ∧ t.vm = { s.vm with inq := s.vm.inq ++ [x] } ∧
        ¬t.vm.canStep ∧ t.activity = .idle)

/-! ### The host's transactions -/

/-- R270 (D17): the power-on state, and what the host sees of it: run() executes nothing and returns (RanOff, []);
peek_memory returns 0 everywhere. -/
def Obligations.PowerOnState : Prop :=
  State.reset.vm = { mem := [], hwm := -1, pc := 0, rb := 0, inq := [], outq := [], runState := .running, fault := none } ∧
  (∃ t u, transact (.run 0) State.reset = .next t ∧ step t = .next u ∧ u.reply = some (.ran .ranOff []) ∧
    u.activity = .idle ∧ u.vm = State.reset.vm) ∧
  ∀ a : Nat, (a : Int) ≤ Config.addrMax →
    ∃ t, transact (.peekMemory 0 a) State.reset = .next t ∧ t.reply = some (.word 0) ∧ t.vm = State.reset.vm

/-- R186, R271: load. Every element of the instance gets its value from the arguments alone: cell a holds the a-th integer
of the image and every cell above it 0, hwm is len - 1, pc and rb are the arguments, the FIFOs are empty, Running, no
fault; no other instance changes. -/
def Obligations.LoadInitialisesEverything : Prop :=
  ∀ (s : State) (i : Nat) (image : List Int) (pc0 rb0 : Word) (q : Slot),
    s.activity = .idle → s.slots[i]? = some q →
    (image.length : Int) ≤ Config.addrMax + 1 → (∀ v ∈ image, Config.wordMin ≤ v ∧ v ≤ Config.wordMax) →
    ∃ t, transact (.load i image pc0 rb0) s = .next t ∧ t.reply = some .done ∧ t.activity = .idle ∧ t.index = i ∧
      (∀ j, j ≠ i → t.slots[j]? = s.slots[j]?) ∧
      (∀ a : Nat, (t.vm.mem.read a).toInt = image.getD a 0) ∧
      t.vm.hwm = image.length - 1 ∧ t.vm.pc = pc0 ∧ t.vm.rb = rb0 ∧ t.vm.inq = [] ∧ t.vm.outq = [] ∧
      t.vm.runState = .running ∧ t.vm.fault = none

/-- R260 (D21, D37): load with an image that is too long or holds a value that is no Word is refused: the host gets the error
and no place, no egress and no latch changes. That net_init, which loads the image, refuses it in the same way is the model's
reading (log 18, DEDUCED). -/
def Obligations.BadImageChangesNothing : Prop :=
  ∀ (s : State) (image : List Int),
    s.activity = .idle →
    Config.addrMax + 1 < (image.length : Int) ∨ (∃ v ∈ image, v < Config.wordMin ∨ Config.wordMax < v) →
    (∀ (i : Nat) (q : Slot) (pc0 rb0 : Word), s.slots[i]? = some q →
      ∃ t, transact (.load i image pc0 rb0) s = .next t ∧ t.reply = some .badImage ∧ t.activity = .idle ∧
        t.slots = s.slots ∧ t.egress = s.egress ∧ t.netFault = s.netFault) ∧
    (∀ n : Nat, 1 ≤ n → (n : Int) ≤ Config.addrMax + 1 →
      ∃ t, transact (.netInit n image) s = .next t ∧ t.reply = some .badImage ∧ t.activity = .idle ∧
        t.slots = s.slots ∧ t.egress = s.egress ∧ t.netFault = s.netFault)

/-- R187 (D36): enqueue_input appends one Word to inq and changes nothing else of the machine's instances, in every run
state and with a fault latched. -/
def Obligations.EnqueueAppendsOnly : Prop :=
  ∀ (s : State) (i : Nat) (v : Word) (q : Slot),
    s.activity = .idle → s.slots[i]? = some q →
    ∃ t, transact (.enqueueInput i v) s = .next t ∧ t.activity = .idle ∧
      t.slots[i]? = some { q with vm := { q.vm with inq := q.vm.inq ++ [v] } } ∧
      (∀ j, j ≠ i → t.slots[j]? = s.slots[j]?) ∧ t.egress = s.egress ∧ t.netFault = s.netFault

/-- R193: peek_memory returns the cell, 0 if it was never written, and changes no state, hwm included; outside
0..ADDR_MAX it returns an AddressError and latches nothing; in every run state, with or without a fault. -/
def Obligations.PeekReadsAndChangesNothing : Prop :=
  ∀ (s : State) (i : Nat) (a : Int) (q : Slot),
    s.activity = .idle → s.slots[i]? = some q →
    ∃ t, transact (.peekMemory i a) s = .next t ∧ t.activity = .idle ∧ t.slots = s.slots ∧ t.egress = s.egress ∧
      t.netFault = s.netFault ∧
      (legalAddress a → t.reply = some (.word (q.vm.mem.read a.toNat))) ∧
      (¬legalAddress a → t.reply = some (.addressError a)) ∧
      (legalAddress a → (∀ w, (a.toNat, w) ∉ q.vm.mem) → t.reply = some (.word 0))

/-- R194 (D10, D21), R260: poke_memory writes the cell and raises hwm to its address; outside 0..ADDR_MAX it returns an
AddressError and changes nothing. -/
def Obligations.PokeWritesAndRaisesHwm : Prop :=
  ∀ (s : State) (i : Nat) (a : Int) (v : Word) (q : Slot),
    s.activity = .idle → s.slots[i]? = some q →
    ∃ t, transact (.pokeMemory i a v) s = .next t ∧ t.activity = .idle ∧
      (legalAddress a → t.reply = some .done ∧
        t.slots[i]? = some { q with vm := { q.vm with mem := q.vm.mem.write a.toNat v, hwm := max q.vm.hwm a } } ∧
        (q.vm.mem.wf = true → t.vm.mem.read a.toNat = v) ∧
        (∀ b : Nat, b ≠ a.toNat → t.vm.mem.read b = q.vm.mem.read b) ∧
        ∀ j, j ≠ i → t.slots[j]? = s.slots[j]?) ∧
      (¬legalAddress a → t.reply = some (.addressError a) ∧ t.slots = s.slots)

/-- R188, R191: run() issued on instance i. A run of i begins: WaitingForInput without a fault becomes Running, in any other
state run_state stays, and nothing else of any instance changes. -/
def Obligations.RunBeginsOnItsInstance : Prop :=
  ∀ (s : State) (i : Nat) (q : Slot),
    s.activity = .idle → s.slots[i]? = some q →
    ∃ t, transact (.run i) s = .next t ∧ t.index = i ∧ t.activity = .run ∧
      t.slots[i]? = some { q with vm := { q.vm with
        runState := if q.vm.fault = none ∧ q.vm.runState = .waitingForInput then .running else q.vm.runState } } ∧
      (∀ j, j ≠ i → t.slots[j]? = s.slots[j]?) ∧ t.egress = s.egress ∧ t.netFault = s.netFault

/-- R192, R195 (D13, D14): run() on a halted instance, or on one with a latched fault, executes nothing and returns the
status of before with whatever is in the output FIFO. -/
def Obligations.RunOfAStoppedInstanceExecutesNothing : Prop :=
  ∀ (s : State) (i : Nat) (q : Slot),
    s.activity = .idle → s.slots[i]? = some q → (q.vm.fault ≠ none ∨ q.vm.runState = .halted) →
    ∃ t u, transact (.run i) s = .next t ∧ step t = .next u ∧ u.activity = .idle ∧
      u.slots[i]? = some { q with vm := { q.vm with outq := [] } } ∧
      (∀ r, q.vm.fault = some r → u.reply = some (.ran (.fault (faultCode r.cause)) q.vm.outq)) ∧
      (q.vm.fault = none → u.reply = some (.ran .halted q.vm.outq))

/-- R197, R225, R278 (D22): while a run() or a round is in progress the host has no move: every transaction is refused. -/
def Obligations.NoTransactionDuringATransaction : Prop :=
  ∀ (c : HostCmd) (s : State), s.activity ≠ .idle → transact c s = .refused .transactionInProgress

/-- R93 (D20): an image text that is accepted has at least one integer, each a Word. -/
def Obligations.AcceptedImageHoldsWords : Prop :=
  ∀ (text : List Char) (image : List Int), parseImage text = some image →
    image ≠ [] ∧ ∀ v ∈ image, Config.wordMin ≤ v ∧ v ≤ Config.wordMax

/-! ### The network -/

/-- R211 (D24): net_init gives N instances, each with the image, Running at pc 0 with rb 0, and its own index as its only
input; nothing staged, no partial packet, empty egress, no fault. -/
def Obligations.NetInitLoadsEveryInstance : Prop :=
  ∀ (s : State) (n : Nat) (image : List Int),
    s.activity = .idle → 1 ≤ n → (n : Int) ≤ Config.addrMax + 1 →
    (image.length : Int) ≤ Config.addrMax + 1 → (∀ v ∈ image, Config.wordMin ≤ v ∧ v ≤ Config.wordMax) →
    ∃ t, transact (.netInit n image) s = .next t ∧ t.slots.length = n ∧ t.egress = [] ∧ t.netFault = none ∧
      t.activity = .idle ∧
      ∀ j, j < n → ∃ q, t.slots[j]? = some q ∧ q.stage = [] ∧ q.partialOut = [] ∧
        q.vm.inq.map BitVec.toInt = [(j : Int)] ∧ q.vm.outq = [] ∧ q.vm.pc = 0 ∧ q.vm.rb = 0 ∧
        q.vm.runState = .running ∧ q.vm.fault = none ∧ q.vm.hwm = image.length - 1 ∧
        ∀ a : Nat, (q.vm.mem.read a).toInt = image.getD a 0

/-- R212, R224, R228: round() and run_network() issued with no network fault latched. A round begins before the turn of
instance 0, with nothing sent and no turns taken, whichever instance the host addressed last; no place, no egress and no latch
changes. They differ in one thing: run_network() goes on with another round. -/
def Obligations.RoundBeginsAtInstanceZero : Prop :=
  ∀ (s : State) (c : HostCmd) (loop : Bool),
    s.activity = .idle → s.netFault = none → (c = .round ∧ loop = false) ∨ (c = .runNetwork ∧ loop = true) →
    ∃ t, transact c s = .next t ∧ t.slots = s.slots ∧ t.index = 0 ∧
      t.activity = .turn { sent := 0, turns := 0, loop := loop } ∧ t.egress = s.egress ∧ t.netFault = none

/-- R213, R214, R226 (D25, D26, D42): a halted instance gets no turn; any other gets exactly one: -1 is enqueued if and only
if its input FIFO is empty, whatever is staged for it, and its run() begins. -/
def Obligations.TurnBeginsWithTheSentinelTest : Prop :=
  ∀ (s : State) (c : RoundCtl), s.activity = .turn c →
    (s.vm.runState = .halted →
      ∃ t, step s = .next t ∧ t.slots = s.slots ∧ t.egress = s.egress ∧ t.netFault = s.netFault ∧
        (s.index + 1 < s.size → t.index = s.index + 1 ∧ t.activity = .turn c) ∧
        (s.index + 1 = s.size → t.activity = .deliver c)) ∧
    (s.vm.runState ≠ .halted →
      step s = .next { s.withVm { s.vm with
          inq := if s.vm.inq = [] then [BitVec.ofInt 64 (-1)] else s.vm.inq
          runState := if s.vm.fault = none then .running else s.vm.runState } with
        activity := .turnRun { c with turns := c.turns + 1 } })

/-- R215 to R218 (D27, D28): when run() of a turn has returned without a fault, the kept Words and the new outputs are cut
into triples, all counted as sent; each is staged for its destination, x before y, or put in egress with its sender; fewer
than three Words remain and are kept; nothing reaches an input FIFO; the router goes on to the next place. -/
def Obligations.TurnEndRoutesEveryPacket : Prop :=
  ∀ (s : State) (c : RoundCtl), s.activity = .turnRun c → ¬s.vm.canStep → s.vm.fault = none →
    ∃ (t : State) (ps : List (Word × Word × Word)) (rest : List Word),
      step s = .next t ∧
      s.slot.partialOut ++ s.vm.outq = ps.flatMap (fun p => [p.1, p.2.1, p.2.2]) ++ rest ∧ rest.length < 3 ∧
      t.slots.length = s.slots.length ∧
      (∀ (j : Nat) (q : Slot), s.slots[j]? = some q →
        t.slots[j]? = some
          { vm := if j = s.index then { q.vm with outq := [] } else q.vm
            stage := q.stage ++ (ps.filter (fun p => decide (p.1.toInt = (j : Int)))).flatMap (fun p => [p.2.1, p.2.2])
            partialOut := if j = s.index then rest else q.partialOut }) ∧
      t.egress = s.egress ++
        (ps.filter (fun p => decide (p.1.toInt < 0 ∨ (s.size : Int) ≤ p.1.toInt))).map
          (fun p => { src := s.index, dest := p.1, x := p.2.1, y := p.2.2 }) ∧
      t.netFault = s.netFault ∧
      (s.index + 1 < s.size → t.index = s.index + 1 ∧ t.activity = .turn { c with sent := c.sent + ps.length }) ∧
      (s.index + 1 = s.size → t.activity = .deliver { c with sent := c.sent + ps.length })

/-- R218, R225: between rounds the host reads the whole egress queue, oldest first, and empties it; no place and no latch
changes. That it is one transaction is the model's form (log 19, DEDUCED). -/
def Obligations.TakeEgressHandsOverTheQueue : Prop :=
  ∀ s : State, s.activity = .idle →
    ∃ t, transact .takeEgress s = .next t ∧ t.reply = some (.egress s.egress) ∧ t.egress = [] ∧ t.activity = .idle ∧
      t.slots = s.slots ∧ t.index = s.index ∧ t.netFault = s.netFault

/-- R219 to R221, R228 (D30, D32): the boundary. Every staged Word goes behind what the destination's input FIFO holds,
halted instances included; idle is sent = 0 with every input FIFO then empty; round() returns, and run_network() returns if
idle or without turns and else begins another round at instance 0. -/
def Obligations.BoundaryDeliversAndTestsIdle : Prop :=
  ∀ (s : State) (c : RoundCtl), s.activity = .deliver c → s.netFault = none →
    ∃ (t : State) (idle : Bool), step s = .next t ∧
      t.slots = s.slots.map (fun q => { q with vm := { q.vm with inq := q.vm.inq ++ q.stage }, stage := [] }) ∧
      t.egress = s.egress ∧ t.netFault = none ∧
      (idle = true ↔ c.sent = 0 ∧ ∀ q ∈ s.slots, q.vm.inq ++ q.stage = []) ∧
      (c.loop = false ∨ idle = true ∨ c.turns = 0 →
        t.activity = .idle ∧ t.reply = some (.round { sent := c.sent, turns := c.turns, idle := idle })) ∧
      (c.loop = true → idle = false → c.turns ≠ 0 →
        t.activity = .turn { sent := 0, turns := 0, loop := true } ∧ t.index = 0)

/-- R222, R262 (D31): a fault in a turn stops the network: net_fault is latched with the instance's index, the outputs of
that turn are neither cut nor routed, nothing is delivered, and the round returns the fault; every later round() and
run_network() returns the same fault and changes nothing; of the host's transactions only net_init clears it, and no step
does. -/
def Obligations.FaultInATurnStopsTheNetwork : Prop :=
  (∀ (s : State) (c : RoundCtl) (r : FaultRecord), s.activity = .turnRun c → s.vm.fault = some r →
    ∃ t, step s = .next t ∧ t.netFault = some (s.index, r) ∧ t.activity = .idle ∧
      t.reply = some (.netFault s.index r) ∧ t.egress = s.egress ∧
      t.slots = s.lower ++ { s.slot with vm := { s.vm with outq := [] } } :: s.higher) ∧
  (∀ (s : State) (i : Nat) (r : FaultRecord), s.activity = .idle → s.netFault = some (i, r) →
    transact .round s = .next { s with reply := some (.netFault i r) } ∧
    transact .runNetwork s = .next { s with reply := some (.netFault i r) }) ∧
  (∀ (c : HostCmd) (s t : State), transact c s = .next t → s.netFault ≠ none → t.netFault ≠ s.netFault →
    ∃ n image, c = .netInit n image) ∧
  (∀ s t : State, s.Inv → step s = .next t → s.netFault ≠ none → t.netFault = s.netFault)

/-- R33, R223: no state is shared. A step of the engine changes nothing outside its own instance, and what it does there
depends on that instance alone. -/
def Obligations.EngineSeesOnlyItsOwnInstance : Prop :=
  (∀ s t : State, s.engineHasStep → step s = .next t → t = s.withVm t.vm) ∧
  (∀ s s' t t' : State, s.engineHasStep → s'.engineHasStep → s.vm = s'.vm →
    step s = .next t → step s' = .next t' → t.vm = t'.vm)

/-- R277, R63: a packet is visible only after the round boundary. Any other step leaves the input FIFO of every instance
alone but for the one in focus, where it removes the head (IN) or, if it is empty, puts the sentinel. -/
def Obligations.PacketsArriveOnlyAtTheBoundary : Prop :=
  ∀ (s t : State) (j : Nat) (q q' : Slot),
    step s = .next t → (∀ c, s.activity ≠ .deliver c) → s.slots[j]? = some q → t.slots[j]? = some q' →
    q'.vm.inq = q.vm.inq ∨
      (j = s.index ∧ ((∃ x, q.vm.inq = x :: q'.vm.inq) ∨ (q.vm.inq = [] ∧ q'.vm.inq = [Config.sentinel])))

/-! ### Invariants and headline results -/

/-- R36 at reset. -/
def Obligations.InvariantHoldsAtReset : Prop := State.reset.Inv

/-- R36: the invariant is kept by every step of every agent, from every state that has it. -/
def Obligations.InvariantKeptByEveryStep : Prop :=
  ∀ s t : State, s.Inv → step s = .next t → t.Inv

/-- R36: the invariant is kept by every transaction of the host. -/
def Obligations.InvariantKeptByEveryTransaction : Prop :=
  ∀ (c : HostCmd) (s t : State), s.Inv → transact c s = .next t → t.Inv

/-- R123, R282: input boundaries do not matter. If feeding xs, running to the return, feeding ys and running to the return
can be done, then feeding xs and ys before a single run can, and ends with the same machine, the same status, and outputs
that are the two runs' outputs one after the other. -/
def Obligations.SplittingTheInputChangesNothing : Prop :=
  ∀ (s b b' : State) (i : Nat) (xs ys : List Word),
    s.activity = .idle →
    CompletesAll (feedAndRun i xs) s b → CompletesAll (feedAndRun i ys) b b' →
    ∃ (a : State) (st st' : Status) (o o' : List Word),
      CompletesAll (feedAndRun i (xs ++ ys)) s a ∧
      b.reply = some (.ran st o) ∧ b'.reply = some (.ran st' o') ∧ a.reply = some (.ran st' (o ++ o')) ∧
      { a with reply := none } = { b' with reply := none }
end

