-- ==== Sys2Proof/Laws/Alu.lean ====
section
/-! SUPPORT. The ALU's operations as operations on bit vectors. -/

namespace Sys2Proof.Machine

@[simp] theorem wrap_toInt (x : Word) : wrap x.toInt = x := by simp [wrap]

/-- The wrapped sum is the 64-bit sum. -/
theorem aluSum_eq (x y : Word) : aluSum x y = x + y := by simp [aluSum, wrap, BitVec.ofInt_add]

/-- The wrapped product is the low 64 bits of the product. -/
theorem aluProduct_eq (x y : Word) : aluProduct x y = x * y := by simp [aluProduct, wrap, BitVec.ofInt_mul]

/-- The sequential advance as a 64-bit sum. -/
theorem wrap_advance (x : Word) (n : Nat) : wrap (x.toInt + 1 + n) = x + BitVec.ofNat 64 (n + 1) := by
  rw [wrap, add_assoc, BitVec.ofInt_add, BitVec.ofInt_toInt]
  congr 1
  rw [show (1 : Int) + (n : Int) = ((n + 1 : Nat) : Int) by omega, BitVec.ofInt_natCast]

theorem lessWord_eq (x y : Word) : lessWord x y = if x.toInt < y.toInt then 1 else 0 := by
  simp [lessWord, truthWord]

theorem equalWord_eq (x y : Word) : equalWord x y = if x = y then 1 else 0 := by
  simp [equalWord, truthWord]

theorem word_toInt_le (x : Word) : x.toInt ≤ Config.addrMax := by
  have := BitVec.toInt_lt (x := x)
  simp [Config.addrMax] at *; omega

end Sys2Proof.Machine
end

