-- ==== Sys2Proof/Laws/Memory.lean ====
section
/-! SUPPORT. The laws of memory: a read after a write, and that every operation keeps the canonical form. -/

namespace Sys2Proof.Machine

@[simp] theorem Memory.read_nil (a : Nat) : Memory.read [] a = 0 := rfl

theorem Memory.wfFrom_cons {lo k : Nat} {v : Word} {m : Memory} :
    Memory.wfFrom lo ((k, v) :: m) = true ↔ lo ≤ k ∧ v ≠ 0 ∧ Memory.wfFrom (k + 1) m = true := by
  simp only [Memory.wfFrom, Bool.and_eq_true, decide_eq_true_eq, and_assoc]
  rfl

/-- A canonical memory reads 0 below its lower bound. -/
theorem Memory.read_below {m : Memory} {lo a : Nat} (h : Memory.wfFrom lo m = true) (ha : a < lo) : m.read a = 0 := by
  induction m generalizing lo with
  | nil => rfl
  | cons c m ih =>
    obtain ⟨k, v⟩ := c
    rw [Memory.wfFrom_cons] at h
    have hk : k ≠ a := by omega
    simpa [Memory.read, hk] using ih h.2.2 (by omega)

theorem Memory.wfFrom_mono {m : Memory} {lo lo' : Nat} (h : Memory.wfFrom lo m = true) (hl : lo' ≤ lo) :
    Memory.wfFrom lo' m = true := by
  cases m with
  | nil => rfl
  | cons c m =>
    obtain ⟨k, v⟩ := c
    rw [Memory.wfFrom_cons] at h ⊢
    exact ⟨by omega, h.2⟩

/-- A write leaves every other address alone. -/
theorem Memory.read_write_other (m : Memory) {a b : Nat} (v : Word) (h : b ≠ a) : (m.write a v).read b = m.read b := by
  induction m with
  | nil =>
    simp only [Memory.write]
    split
    · rfl
    · simp [Memory.read, Ne.symm h, unlistedWord]
  | cons c m ih =>
    obtain ⟨k, w⟩ := c
    simp only [Memory.write]
    split
    · split
      · rfl
      · simp [Memory.read, Ne.symm h]
    · split
      · next hk =>
        subst hk
        split <;> simp [Memory.read, Ne.symm h]
      · simp [Memory.read, ih]

theorem Memory.read_write_same_from {m : Memory} {lo a : Nat} (v : Word) (h : Memory.wfFrom lo m = true) :
    (m.write a v).read a = v := by
  induction m generalizing lo with
  | nil =>
    simp only [Memory.write]
    split
    · next hv => simp [hv, unlistedWord]
    · simp [Memory.read]
  | cons c m ih =>
    obtain ⟨k, w⟩ := c
    rw [Memory.wfFrom_cons] at h
    simp only [Memory.write]
    split
    · next hk =>
      split
      · next hv =>
        have hne : k ≠ a := by omega
        simp [Memory.read, hne, Memory.read_below h.2.2 (by omega : a < k + 1), hv, unlistedWord]
      · simp [Memory.read]
    · split
      · next hk =>
        split
        · next hv =>
          subst hk
          simp [Memory.read_below h.2.2 (by omega : a < a + 1), hv, unlistedWord]
        · simp [Memory.read]
      · next hk =>
        simp [Memory.read, Ne.symm hk, ih h.2.2]

/-- A read after a write to the same address gives the value written. -/
theorem Memory.read_write_same {m : Memory} {a : Nat} (v : Word) (h : m.wf = true) : (m.write a v).read a = v :=
  Memory.read_write_same_from v h

theorem Memory.write_wfFrom {m : Memory} {lo a : Nat} (v : Word) (h : Memory.wfFrom lo m = true) (ha : lo ≤ a) :
    Memory.wfFrom lo (m.write a v) = true := by
  induction m generalizing lo with
  | nil =>
    simp only [Memory.write]
    split
    · rfl
    · next hv => exact Memory.wfFrom_cons.2 ⟨ha, hv, rfl⟩
  | cons c m ih =>
    obtain ⟨k, w⟩ := c
    have h' := Memory.wfFrom_cons.1 h
    simp only [Memory.write]
    split
    · next hk =>
      split
      · exact h
      · next hv => exact Memory.wfFrom_cons.2 ⟨ha, hv, Memory.wfFrom_cons.2 ⟨by omega, h'.2⟩⟩
    · split
      · next hk =>
        subst hk
        split
        · exact Memory.wfFrom_mono h'.2.2 (by omega)
        · next hv => exact Memory.wfFrom_cons.2 ⟨ha, hv, h'.2.2⟩
      · exact Memory.wfFrom_cons.2 ⟨h'.1, h'.2.1, ih h'.2.2 (by omega)⟩

/-- A write keeps the canonical form. -/
theorem Memory.write_wf {m : Memory} (a : Nat) (v : Word) (h : m.wf = true) : (m.write a v).wf = true :=
  Memory.write_wfFrom v h (Nat.zero_le a)

theorem Memory.ofImage_wfFrom (vs : List Word) (k : Nat) : Memory.wfFrom k (Memory.ofImage k vs) = true := by
  induction vs generalizing k with
  | nil => rfl
  | cons v vs ih =>
    simp only [Memory.ofImage]
    split
    · exact Memory.wfFrom_mono (ih (k + 1)) (by omega)
    · next hv => exact Memory.wfFrom_cons.2 ⟨le_refl k, hv, ih (k + 1)⟩

/-- The memory of an image is canonical. -/
theorem Memory.ofImage_wf (vs : List Word) : (Memory.ofImage 0 vs).wf = true := Memory.ofImage_wfFrom vs 0

theorem Memory.read_ofImage_from (vs : List Word) (k a : Nat) :
    (Memory.ofImage k vs).read (k + a) = vs.getD a 0 := by
  induction vs generalizing k a with
  | nil => simp [Memory.ofImage]
  | cons v vs ih =>
    simp only [Memory.ofImage]
    cases a with
    | zero =>
      split
      · next hv =>
        rw [Memory.read_below (Memory.ofImage_wfFrom vs (k + 1)) (by omega)]
        simp [hv, unlistedWord]
      · simp [Memory.read]
    | succ a =>
      have hka : k + (a + 1) = k + 1 + a := by omega
      split
      · rw [hka, ih]; simp
      · have hne : k ≠ k + 1 + a := by omega
        rw [hka]; simp [Memory.read, hne, ih]

/-- Cell a of a loaded image is its a-th Word, and 0 above it (R186). -/
theorem Memory.read_ofImage (vs : List Word) (a : Nat) : (Memory.ofImage 0 vs).read a = vs.getD a 0 := by
  simpa using Memory.read_ofImage_from vs 0 a

/-- A write at or below the bound keeps the bound. -/
theorem Memory.boundedBy_write {m : Memory} {h : Int} {a : Nat} {v : Word} (hm : m.boundedBy h) :
    (m.write a v).boundedBy (max h a) := by
  intro b hb
  by_cases hab : b = a
  · subst hab; exact le_max_right _ _
  · rw [Memory.read_write_other m v hab] at hb
    exact le_trans (hm b hb) (le_max_left _ _)

theorem Memory.boundedBy_mono {m : Memory} {h h' : Int} (hm : m.boundedBy h) (hh : h ≤ h') : m.boundedBy h' :=
  fun a ha => le_trans (hm a ha) hh

end Sys2Proof.Machine
end

