-- ==== Sys2Proof/Laws/State.lean ====
section
/-! SUPPORT. One lemma per field per update of an instance and of the machine, each true by rfl. -/

namespace Sys2Proof.Machine

@[simp] theorem VM.touch_mem (v : VM) (a : Int) : (v.touch a).mem = v.mem := rfl
@[simp] theorem VM.touch_hwm (v : VM) (a : Int) : (v.touch a).hwm = max v.hwm a := rfl
@[simp] theorem VM.touch_pc (v : VM) (a : Int) : (v.touch a).pc = v.pc := rfl
@[simp] theorem VM.touch_rb (v : VM) (a : Int) : (v.touch a).rb = v.rb := rfl
@[simp] theorem VM.touch_inq (v : VM) (a : Int) : (v.touch a).inq = v.inq := rfl
@[simp] theorem VM.touch_outq (v : VM) (a : Int) : (v.touch a).outq = v.outq := rfl
@[simp] theorem VM.touch_runState (v : VM) (a : Int) : (v.touch a).runState = v.runState := rfl
@[simp] theorem VM.touch_fault (v : VM) (a : Int) : (v.touch a).fault = v.fault := rfl

@[simp] theorem VM.store_mem (v : VM) (a : Int) (x : Word) : (v.store a x).mem = v.mem.write a.toNat x := rfl
@[simp] theorem VM.store_hwm (v : VM) (a : Int) (x : Word) : (v.store a x).hwm = max v.hwm a := rfl
@[simp] theorem VM.store_pc (v : VM) (a : Int) (x : Word) : (v.store a x).pc = v.pc := rfl
@[simp] theorem VM.store_rb (v : VM) (a : Int) (x : Word) : (v.store a x).rb = v.rb := rfl
@[simp] theorem VM.store_inq (v : VM) (a : Int) (x : Word) : (v.store a x).inq = v.inq := rfl
@[simp] theorem VM.store_outq (v : VM) (a : Int) (x : Word) : (v.store a x).outq = v.outq := rfl
@[simp] theorem VM.store_runState (v : VM) (a : Int) (x : Word) : (v.store a x).runState = v.runState := rfl
@[simp] theorem VM.store_fault (v : VM) (a : Int) (x : Word) : (v.store a x).fault = v.fault := rfl

@[simp] theorem VM.advance_mem (v : VM) (n : Nat) : (v.advance n).mem = v.mem := rfl
@[simp] theorem VM.advance_hwm (v : VM) (n : Nat) : (v.advance n).hwm = v.hwm := rfl
@[simp] theorem VM.advance_pc (v : VM) (n : Nat) : (v.advance n).pc = wrap (v.pc.toInt + 1 + n) := rfl
@[simp] theorem VM.advance_rb (v : VM) (n : Nat) : (v.advance n).rb = v.rb := rfl
@[simp] theorem VM.advance_inq (v : VM) (n : Nat) : (v.advance n).inq = v.inq := rfl
@[simp] theorem VM.advance_outq (v : VM) (n : Nat) : (v.advance n).outq = v.outq := rfl
@[simp] theorem VM.advance_runState (v : VM) (n : Nat) : (v.advance n).runState = v.runState := rfl
@[simp] theorem VM.advance_fault (v : VM) (n : Nat) : (v.advance n).fault = v.fault := rfl

@[simp] theorem VM.outPush_mem (v : VM) (x : Word) : (v.outPush x).mem = v.mem := rfl
@[simp] theorem VM.outPush_hwm (v : VM) (x : Word) : (v.outPush x).hwm = v.hwm := rfl
@[simp] theorem VM.outPush_pc (v : VM) (x : Word) : (v.outPush x).pc = v.pc := rfl
@[simp] theorem VM.outPush_rb (v : VM) (x : Word) : (v.outPush x).rb = v.rb := rfl
@[simp] theorem VM.outPush_inq (v : VM) (x : Word) : (v.outPush x).inq = v.inq := rfl
@[simp] theorem VM.outPush_outq (v : VM) (x : Word) : (v.outPush x).outq = v.outq ++ [x] := rfl
@[simp] theorem VM.outPush_runState (v : VM) (x : Word) : (v.outPush x).runState = v.runState := rfl
@[simp] theorem VM.outPush_fault (v : VM) (x : Word) : (v.outPush x).fault = v.fault := rfl

@[simp] theorem VM.enqueueInput_mem (v : VM) (x : Word) : (v.enqueueInput x).mem = v.mem := rfl
@[simp] theorem VM.enqueueInput_hwm (v : VM) (x : Word) : (v.enqueueInput x).hwm = v.hwm := rfl
@[simp] theorem VM.enqueueInput_pc (v : VM) (x : Word) : (v.enqueueInput x).pc = v.pc := rfl
@[simp] theorem VM.enqueueInput_rb (v : VM) (x : Word) : (v.enqueueInput x).rb = v.rb := rfl
@[simp] theorem VM.enqueueInput_inq (v : VM) (x : Word) : (v.enqueueInput x).inq = v.inq ++ [x] := rfl
@[simp] theorem VM.enqueueInput_outq (v : VM) (x : Word) : (v.enqueueInput x).outq = v.outq := rfl
@[simp] theorem VM.enqueueInput_runState (v : VM) (x : Word) : (v.enqueueInput x).runState = v.runState := rfl
@[simp] theorem VM.enqueueInput_fault (v : VM) (x : Word) : (v.enqueueInput x).fault = v.fault := rfl

@[simp] theorem VM.takeFault_mem (v : VM) (c : FaultCause) : (v.takeFault c).mem = v.mem := rfl
@[simp] theorem VM.takeFault_hwm (v : VM) (c : FaultCause) : (v.takeFault c).hwm = v.hwm := rfl
@[simp] theorem VM.takeFault_pc (v : VM) (c : FaultCause) : (v.takeFault c).pc = v.pc := rfl
@[simp] theorem VM.takeFault_rb (v : VM) (c : FaultCause) : (v.takeFault c).rb = v.rb := rfl
@[simp] theorem VM.takeFault_inq (v : VM) (c : FaultCause) : (v.takeFault c).inq = v.inq := rfl
@[simp] theorem VM.takeFault_outq (v : VM) (c : FaultCause) : (v.takeFault c).outq = v.outq := rfl
@[simp] theorem VM.takeFault_runState (v : VM) (c : FaultCause) : (v.takeFault c).runState = v.runState := rfl
@[simp] theorem VM.takeFault_fault (v : VM) (c : FaultCause) : (v.takeFault c).fault = some { cause := c, pc := v.pc, word := v.wordAtPc } := rfl

@[simp] theorem VM.suspend_mem (v : VM) : (v.suspend).mem = v.mem := rfl
@[simp] theorem VM.suspend_hwm (v : VM) : (v.suspend).hwm = v.hwm := rfl
@[simp] theorem VM.suspend_pc (v : VM) : (v.suspend).pc = v.pc := rfl
@[simp] theorem VM.suspend_rb (v : VM) : (v.suspend).rb = v.rb := rfl
@[simp] theorem VM.suspend_inq (v : VM) : (v.suspend).inq = v.inq := rfl
@[simp] theorem VM.suspend_outq (v : VM) : (v.suspend).outq = v.outq := rfl
@[simp] theorem VM.suspend_runState (v : VM) : (v.suspend).runState = .waitingForInput := rfl
@[simp] theorem VM.suspend_fault (v : VM) : (v.suspend).fault = v.fault := rfl

@[simp] theorem VM.drain_mem (v : VM) : (v.drain).mem = v.mem := rfl
@[simp] theorem VM.drain_hwm (v : VM) : (v.drain).hwm = v.hwm := rfl
@[simp] theorem VM.drain_pc (v : VM) : (v.drain).pc = v.pc := rfl
@[simp] theorem VM.drain_rb (v : VM) : (v.drain).rb = v.rb := rfl
@[simp] theorem VM.drain_inq (v : VM) : (v.drain).inq = v.inq := rfl
@[simp] theorem VM.drain_outq (v : VM) : (v.drain).outq = [] := rfl
@[simp] theorem VM.drain_runState (v : VM) : (v.drain).runState = v.runState := rfl
@[simp] theorem VM.drain_fault (v : VM) : (v.drain).fault = v.fault := rfl

@[simp] theorem State.withVm_vm (s : State) (v : VM) : (s.withVm v).slot.vm = v := rfl
@[simp] theorem State.vm_withVm (s : State) (v : VM) : (s.withVm v).vm = v := rfl
@[simp] theorem State.withVm_stage (s : State) (v : VM) : (s.withVm v).slot.stage = s.slot.stage := rfl
@[simp] theorem State.withVm_partialOut (s : State) (v : VM) : (s.withVm v).slot.partialOut = s.slot.partialOut := rfl
@[simp] theorem State.withVm_lower (s : State) (v : VM) : (s.withVm v).lower = s.lower := rfl
@[simp] theorem State.withVm_higher (s : State) (v : VM) : (s.withVm v).higher = s.higher := rfl
@[simp] theorem State.withVm_egress (s : State) (v : VM) : (s.withVm v).egress = s.egress := rfl
@[simp] theorem State.withVm_netFault (s : State) (v : VM) : (s.withVm v).netFault = s.netFault := rfl
@[simp] theorem State.withVm_activity (s : State) (v : VM) : (s.withVm v).activity = s.activity := rfl
@[simp] theorem State.withVm_reply (s : State) (v : VM) : (s.withVm v).reply = s.reply := rfl
@[simp] theorem State.withVm_self (s : State) : s.withVm s.slot.vm = s := rfl
@[simp] theorem State.withVm_withVm (s : State) (v w : VM) : (s.withVm v).withVm w = s.withVm w := rfl

/-- What `resume` leaves alone. -/
theorem VM.resume_cases (v : VM) :
    (v.fault = none ∧ v.runState = .waitingForInput ∧ v.resume = { v with runState := .running }) ∨
      (¬(v.fault = none ∧ v.runState = .waitingForInput) ∧ v.resume = v) := by
  unfold VM.resume
  split
  · next h => exact .inl ⟨h.1, h.2, rfl⟩
  · next h => exact .inr ⟨h, rfl⟩

@[simp] theorem VM.resume_mem (v : VM) : v.resume.mem = v.mem := by
  unfold VM.resume; split <;> rfl
@[simp] theorem VM.resume_hwm (v : VM) : v.resume.hwm = v.hwm := by
  unfold VM.resume; split <;> rfl
@[simp] theorem VM.resume_pc (v : VM) : v.resume.pc = v.pc := by
  unfold VM.resume; split <;> rfl
@[simp] theorem VM.resume_rb (v : VM) : v.resume.rb = v.rb := by
  unfold VM.resume; split <;> rfl
@[simp] theorem VM.resume_inq (v : VM) : v.resume.inq = v.inq := by
  unfold VM.resume; split <;> rfl
@[simp] theorem VM.resume_outq (v : VM) : v.resume.outq = v.outq := by
  unfold VM.resume; split <;> rfl
@[simp] theorem VM.resume_fault (v : VM) : v.resume.fault = v.fault := by
  unfold VM.resume; split <;> rfl

@[simp] theorem VM.conclude_ok (v w : VM) : v.conclude (.ok w) = w := rfl
@[simp] theorem VM.conclude_raise (v : VM) (c : FaultCause) : v.conclude (.error (.raise c)) = v.takeFault c := rfl
@[simp] theorem VM.conclude_suspend (v : VM) : v.conclude (.error .suspend) = v.suspend := rfl

end Sys2Proof.Machine
end

