-- ==== Sys2Proof/Laws/Resolve.lean ====
section
/-! SUPPORT. What memory reads and the two resolvers can answer. -/

namespace Sys2Proof.Machine

/-- A sequence of two computations succeeds exactly if both do. -/
theorem except_bind_ok {α β : Type} {x : Except Abort α} {f : α → Except Abort β} {b : β} :
    (x >>= f) = .ok b ↔ ∃ a, x = .ok a ∧ f a = .ok b := by
  cases x <;> simp [bind, Except.bind]

/-- A sequence of two computations stops exactly if the first does, or the second after it. -/
theorem except_bind_error {α β : Type} {x : Except Abort α} {f : α → Except Abort β} {e : Abort} :
    (x >>= f) = .error e ↔ x = .error e ∨ ∃ a, x = .ok a ∧ f a = .error e := by
  cases x <;> simp [bind, Except.bind]

theorem VM.memRead_ok {v : VM} {a : Int} {x : Word} :
    v.memRead a = .ok x ↔ legalAddress a ∧ v.mem.read a.toNat = x := by
  unfold VM.memRead
  split
  · next h =>
    constructor
    · intro h'; cases h'; exact ⟨h, rfl⟩
    · rintro ⟨-, rfl⟩; rfl
  · next h =>
    constructor
    · intro h'; cases h'
    · rintro ⟨h', -⟩; exact absurd h' h

theorem VM.memRead_error {v : VM} {a : Int} {e : Abort} :
    v.memRead a = .error e ↔ ¬legalAddress a ∧ Abort.raise (.addressError a) = e := by
  unfold VM.memRead
  split
  · next h =>
    constructor
    · intro h'; cases h'
    · rintro ⟨h', -⟩; exact absurd h h'
  · next h =>
    constructor
    · intro h'; cases h'; exact ⟨h, rfl⟩
    · rintro ⟨-, rfl⟩; rfl

theorem VM.memRead_congr {v w : VM} (hm : w.mem = v.mem) (a : Int) : w.memRead a = v.memRead a := by
  unfold VM.memRead
  rw [hm]

theorem checkTarget_ok {a b : Int} {t : WriteTarget} :
    checkTarget a b = .ok t ↔ legalAddress a ∧ (⟨a, b⟩ : WriteTarget) = t := by
  unfold checkTarget
  split
  · next h =>
    constructor
    · intro h'; cases h'; exact ⟨h, rfl⟩
    · rintro ⟨-, rfl⟩; rfl
  · next h =>
    constructor
    · intro h'; cases h'
    · rintro ⟨h', -⟩; exact absurd h' h

theorem checkTarget_error {a b : Int} {e : Abort} :
    checkTarget a b = .error e ↔ ¬legalAddress a ∧ Abort.raise (.addressError a) = e := by
  unfold checkTarget
  split
  · next h =>
    constructor
    · intro h'; cases h'
    · rintro ⟨h', -⟩; exact absurd h h'
  · next h =>
    constructor
    · intro h'; cases h'; exact ⟨h, rfl⟩
    · rintro ⟨-, rfl⟩; rfl

/-- The value of a read operand (R131 to R133, R139). -/
theorem VM.resolveRead_ok {v : VM} {i : Nat} {m : Mode} {x : ReadOperand} (h : v.resolveRead i m = .ok x) :
    ∃ p : Word, legalAddress (v.operandAddress i) ∧ v.mem.read (v.operandAddress i).toNat = p ∧
      ((m = .position ∧ legalAddress p.toInt ∧
          x = ⟨v.mem.read p.toInt.toNat, max (v.operandAddress i) p.toInt⟩) ∨
        (m = .immediate ∧ x = ⟨p, v.operandAddress i⟩) ∨
        (m = .relative ∧ legalAddress (v.rb.toInt + p.toInt) ∧
          x = ⟨v.mem.read (v.rb.toInt + p.toInt).toNat, max (v.operandAddress i) (v.rb.toInt + p.toInt)⟩)) := by
  unfold VM.resolveRead at h
  obtain ⟨p, hp, h⟩ := except_bind_ok.1 h
  obtain ⟨hl, hp⟩ := VM.memRead_ok.1 hp
  refine ⟨p, hl, hp, ?_⟩
  cases m with
  | position =>
    obtain ⟨y, hy, h⟩ := except_bind_ok.1 h
    obtain ⟨hly, rfl⟩ := VM.memRead_ok.1 hy
    cases h
    exact .inl ⟨rfl, hly, rfl⟩
  | immediate =>
    cases h
    exact .inr (.inl ⟨rfl, rfl⟩)
  | relative =>
    obtain ⟨y, hy, h⟩ := except_bind_ok.1 h
    obtain ⟨hly, rfl⟩ := VM.memRead_ok.1 hy
    cases h
    exact .inr (.inr ⟨rfl, hly, rfl⟩)

/-- A read operand that does not resolve raises AddressError with an address outside the range. -/
theorem VM.resolveRead_error {v : VM} {i : Nat} {m : Mode} {e : Abort} (h : v.resolveRead i m = .error e) :
    ∃ a : Int, ¬legalAddress a ∧ e = .raise (.addressError a) := by
  unfold VM.resolveRead at h
  rcases except_bind_error.1 h with h | ⟨p, -, h⟩
  · obtain ⟨hl, rfl⟩ := VM.memRead_error.1 h
    exact ⟨_, hl, rfl⟩
  · cases m with
    | position =>
      rcases except_bind_error.1 h with h | ⟨y, -, h⟩
      · obtain ⟨hl, rfl⟩ := VM.memRead_error.1 h
        exact ⟨_, hl, rfl⟩
      · cases h
    | immediate => cases h
    | relative =>
      rcases except_bind_error.1 h with h | ⟨y, -, h⟩
      · obtain ⟨hl, rfl⟩ := VM.memRead_error.1 h
        exact ⟨_, hl, rfl⟩
      · cases h

/-- The address of a write target (R134, R135, R140). -/
theorem VM.resolveWrite_ok {v : VM} {i : Nat} {m : Mode} {t : WriteTarget} (h : v.resolveWrite i m = .ok t) :
    ∃ p : Word, legalAddress (v.operandAddress i) ∧ v.mem.read (v.operandAddress i).toNat = p ∧
      ((m = .position ∧ legalAddress p.toInt ∧ t = ⟨p.toInt, v.operandAddress i⟩) ∨
        (m = .relative ∧ legalAddress (v.rb.toInt + p.toInt) ∧ t = ⟨v.rb.toInt + p.toInt, v.operandAddress i⟩)) := by
  unfold VM.resolveWrite at h
  cases m with
  | immediate => cases h
  | position =>
    obtain ⟨p, hp, h⟩ := except_bind_ok.1 h
    obtain ⟨hl, hp⟩ := VM.memRead_ok.1 hp
    obtain ⟨ht, rfl⟩ := checkTarget_ok.1 h
    exact ⟨p, hl, hp, .inl ⟨rfl, ht, rfl⟩⟩
  | relative =>
    obtain ⟨p, hp, h⟩ := except_bind_ok.1 h
    obtain ⟨hl, hp⟩ := VM.memRead_ok.1 hp
    obtain ⟨ht, rfl⟩ := checkTarget_ok.1 h
    exact ⟨p, hl, hp, .inr ⟨rfl, ht, rfl⟩⟩

/-- A write target that does not resolve raises a fault: AddressError, or InvalidParameterMode in mode 1. -/
theorem VM.resolveWrite_error {v : VM} {i : Nat} {m : Mode} {e : Abort} (h : v.resolveWrite i m = .error e) :
    (m = .immediate ∧ e = .raise (.invalidParameterMode i 1)) ∨
      ∃ a : Int, ¬legalAddress a ∧ e = .raise (.addressError a) := by
  unfold VM.resolveWrite at h
  cases m with
  | immediate => cases h; exact .inl ⟨rfl, rfl⟩
  | position =>
    rcases except_bind_error.1 h with h | ⟨p, -, h⟩
    · obtain ⟨hl, rfl⟩ := VM.memRead_error.1 h
      exact .inr ⟨_, hl, rfl⟩
    · obtain ⟨hl, rfl⟩ := checkTarget_error.1 h
      exact .inr ⟨_, hl, rfl⟩
  | relative =>
    rcases except_bind_error.1 h with h | ⟨p, -, h⟩
    · obtain ⟨hl, rfl⟩ := VM.memRead_error.1 h
      exact .inr ⟨_, hl, rfl⟩
    · obtain ⟨hl, rfl⟩ := checkTarget_error.1 h
      exact .inr ⟨_, hl, rfl⟩

/-- Every address a resolution touches is legal. -/
theorem VM.resolveRead_top {v : VM} {i : Nat} {m : Mode} {x : ReadOperand} (h : v.resolveRead i m = .ok x) :
    0 ≤ x.top ∧ x.top ≤ Config.addrMax := by
  obtain ⟨p, hl, -, h⟩ := VM.resolveRead_ok h
  rcases h with ⟨-, hp, rfl⟩ | ⟨-, rfl⟩ | ⟨-, hp, rfl⟩
  · exact ⟨le_trans hl.1 (le_max_left _ _), max_le hl.2 hp.2⟩
  · exact hl
  · exact ⟨le_trans hl.1 (le_max_left _ _), max_le hl.2 hp.2⟩

theorem VM.resolveWrite_range {v : VM} {i : Nat} {m : Mode} {t : WriteTarget} (h : v.resolveWrite i m = .ok t) :
    legalAddress t.target ∧ legalAddress t.top := by
  obtain ⟨p, hl, -, h⟩ := VM.resolveWrite_ok h
  rcases h with ⟨-, hp, rfl⟩ | ⟨-, hp, rfl⟩
  · exact ⟨hp, hl⟩
  · exact ⟨hp, hl⟩

/-- Resolution depends on memory, pc and rb alone (R114). -/
theorem VM.resolveRead_congr {v w : VM} (hm : w.mem = v.mem) (hp : w.pc = v.pc) (hr : w.rb = v.rb) (i : Nat) (m : Mode) :
    w.resolveRead i m = v.resolveRead i m := by
  cases m <;> simp only [VM.resolveRead, VM.memRead_congr hm, VM.operandAddress, hp, hr]

theorem VM.resolveWrite_congr {v w : VM} (hm : w.mem = v.mem) (hp : w.pc = v.pc) (hr : w.rb = v.rb) (i : Nat) (m : Mode) :
    w.resolveWrite i m = v.resolveWrite i m := by
  cases m <;> simp only [VM.resolveWrite, VM.memRead_congr hm, VM.operandAddress, hp, hr]

end Sys2Proof.Machine
end

