-- ==== Sys2Proof/Laws/Exec.lean ====
section
/-! SUPPORT. What each instruction can do: one lemma per shape, cited in place of unfolding a meaning. -/

namespace Sys2Proof.Machine

/-- The effect of an instruction on the instance in focus, before it is committed. -/
def VM.effect (v : VM) : Instr → Except Abort VM
  | .add a b d => v.binary aluSum a b d
  | .mul a b d => v.binary aluProduct a b d
  | .inp d => v.input d
  | .out a => v.output a
  | .jt c t => v.jump wordTrue c t
  | .jf c t => v.jump wordFalse c t
  | .lt a b d => v.binary lessWord a b d
  | .eq a b d => v.binary equalWord a b d
  | .arb a => v.adjustBase a
  | .halt => .ok { v.touch v.pc.toInt with runState := .halted }

/-- Every instruction answers a next state, in which only the instance in focus differs. -/
theorem exec_eq_conclude (i : Instr) (s : State) : exec i s = s.conclude (s.vm.effect i) := by
  cases i <;> rfl

theorem exec_eq_next (i : Instr) (s : State) : exec i s = .next (s.withVm (s.vm.conclude (s.vm.effect i))) := by
  rw [exec_eq_conclude]; rfl

theorem exec_next_iff {i : Instr} {s t : State} :
    exec i s = .next t ↔ t = s.withVm (s.vm.conclude (s.vm.effect i)) := by
  rw [exec_eq_next]
  constructor
  · intro h; cases h; rfl
  · rintro rfl; rfl

/-- A completed ADD, MUL, LT or EQ. -/
theorem VM.binary_ok {v v' : VM} {f : Word → Word → Word} {a b d : Mode} (h : v.binary f a b d = .ok v') :
    ∃ x y t, v.resolveRead 1 a = .ok x ∧ v.resolveRead 2 b = .ok y ∧ v.resolveWrite 3 d = .ok t ∧
      v' = { v with
        mem := v.mem.write t.target.toNat (f x.value y.value)
        hwm := max (max (max (max (max v.hwm v.pc.toInt) x.top) y.top) t.top) t.target
        pc := wrap (v.pc.toInt + 1 + (3 : Nat)) } := by
  unfold VM.binary at h
  obtain ⟨x, hx, h⟩ := except_bind_ok.1 h
  obtain ⟨y, hy, h⟩ := except_bind_ok.1 h
  obtain ⟨t, ht, h⟩ := except_bind_ok.1 h
  cases h
  exact ⟨x, y, t, hx, hy, ht, rfl⟩

/-- A completed ADD, MUL, LT or EQ, from its operands. -/
theorem VM.binary_eq {v : VM} {f : Word → Word → Word} {a b d : Mode} {x y : ReadOperand} {t : WriteTarget}
    (hx : v.resolveRead 1 a = .ok x) (hy : v.resolveRead 2 b = .ok y) (ht : v.resolveWrite 3 d = .ok t) :
    v.binary f a b d = .ok { v with
        mem := v.mem.write t.target.toNat (f x.value y.value)
        hwm := max (max (max (max (max v.hwm v.pc.toInt) x.top) y.top) t.top) t.target
        pc := wrap (v.pc.toInt + 1 + (3 : Nat)) } := by
  simp only [VM.binary, hx, hy, ht]
  rfl

/-- An ADD, MUL, LT or EQ that does not complete: the first operand that does not resolve says why. -/
theorem VM.binary_error {v : VM} {f : Word → Word → Word} {a b d : Mode} {e : Abort} (h : v.binary f a b d = .error e) :
    v.resolveRead 1 a = .error e ∨
      (∃ x, v.resolveRead 1 a = .ok x ∧ (v.resolveRead 2 b = .error e ∨
        ∃ y, v.resolveRead 2 b = .ok y ∧ v.resolveWrite 3 d = .error e)) := by
  unfold VM.binary at h
  rcases except_bind_error.1 h with h | ⟨x, hx, h⟩
  · exact .inl h
  · rcases except_bind_error.1 h with h | ⟨y, hy, h⟩
    · exact .inr ⟨x, hx, .inl h⟩
    · rcases except_bind_error.1 h with h | ⟨t, -, h⟩
      · exact .inr ⟨x, hx, .inr ⟨y, hy, h⟩⟩
      · cases h

/-- A completed IN. -/
theorem VM.input_ok {v v' : VM} {d : Mode} (h : v.input d = .ok v') :
    ∃ t x xs, v.resolveWrite 1 d = .ok t ∧ v.inq = x :: xs ∧
      v' = { v with
        mem := v.mem.write t.target.toNat x
        hwm := max (max (max v.hwm v.pc.toInt) t.top) t.target
        pc := wrap (v.pc.toInt + 1 + (1 : Nat))
        inq := xs } := by
  unfold VM.input at h
  obtain ⟨t, ht, h⟩ := except_bind_ok.1 h
  unfold VM.inPop at h
  split at h
  · cases h
  · next x w hw =>
    split at hw
    · cases hw
    · next y ys hy =>
      cases hw
      cases h
      exact ⟨t, x, ys, ht, hy, rfl⟩

theorem VM.input_eq {v : VM} {d : Mode} {t : WriteTarget} {x : Word} {xs : List Word}
    (ht : v.resolveWrite 1 d = .ok t) (hq : v.inq = x :: xs) :
    v.input d = .ok { v with
        mem := v.mem.write t.target.toNat x
        hwm := max (max (max v.hwm v.pc.toInt) t.top) t.target
        pc := wrap (v.pc.toInt + 1 + (1 : Nat))
        inq := xs } := by
  simp only [VM.input, VM.inPop, ht, hq]
  rfl

/-- IN suspends exactly if its target resolves and the input FIFO is empty (R118, R247). -/
theorem VM.input_suspend {v : VM} {d : Mode} :
    v.input d = .error .suspend ↔ (∃ t, v.resolveWrite 1 d = .ok t) ∧ v.inq = [] := by
  constructor
  · intro h
    unfold VM.input at h
    rcases except_bind_error.1 h with h | ⟨t, ht, h⟩
    · rcases VM.resolveWrite_error h with ⟨-, h⟩ | ⟨a, -, h⟩ <;> cases h
    · refine ⟨⟨t, ht⟩, ?_⟩
      cases hq : v.inq with
      | nil => rfl
      | cons y ys => simp only [VM.inPop, hq] at h; cases h
  · rintro ⟨⟨t, ht⟩, hq⟩
    simp only [VM.input, VM.inPop, ht, hq]
    rfl

/-- An IN that faults: its target does not resolve, whatever the input FIFO holds. -/
theorem VM.input_raise {v : VM} {d : Mode} {c : FaultCause} :
    v.input d = .error (.raise c) ↔ v.resolveWrite 1 d = .error (.raise c) := by
  constructor
  · intro h
    unfold VM.input at h
    rcases except_bind_error.1 h with h | ⟨t, ht, h⟩
    · exact h
    · cases hq : v.inq with
      | nil => simp only [VM.inPop, hq] at h; cases h
      | cons y ys => simp only [VM.inPop, hq] at h; cases h
  · intro h
    simp only [VM.input, h]
    rfl

/-- A completed OUT. -/
theorem VM.output_ok {v v' : VM} {a : Mode} (h : v.output a = .ok v') :
    ∃ x, v.resolveRead 1 a = .ok x ∧
      v' = { v with
        hwm := max (max v.hwm v.pc.toInt) x.top
        outq := v.outq ++ [x.value]
        pc := wrap (v.pc.toInt + 1 + (1 : Nat)) } := by
  unfold VM.output at h
  obtain ⟨x, hx, h⟩ := except_bind_ok.1 h
  cases h
  exact ⟨x, hx, rfl⟩

theorem VM.output_eq {v : VM} {a : Mode} {x : ReadOperand} (hx : v.resolveRead 1 a = .ok x) :
    v.output a = .ok { v with
        hwm := max (max v.hwm v.pc.toInt) x.top
        outq := v.outq ++ [x.value]
        pc := wrap (v.pc.toInt + 1 + (1 : Nat)) } := by
  simp only [VM.output, hx]
  rfl

theorem VM.output_error {v : VM} {a : Mode} {e : Abort} (h : v.output a = .error e) : v.resolveRead 1 a = .error e := by
  unfold VM.output at h
  rcases except_bind_error.1 h with h | ⟨x, -, h⟩
  · exact h
  · cases h

/-- A completed JT or JF. -/
theorem VM.jump_ok {v v' : VM} {p : Word → Bool} {c t : Mode} (h : v.jump p c t = .ok v') :
    ∃ x y, v.resolveRead 1 c = .ok x ∧ v.resolveRead 2 t = .ok y ∧
      v' = { v with
        hwm := max (max (max v.hwm v.pc.toInt) x.top) y.top
        pc := if p x.value then y.value else wrap (v.pc.toInt + 1 + (2 : Nat)) } := by
  unfold VM.jump at h
  obtain ⟨x, hx, h⟩ := except_bind_ok.1 h
  obtain ⟨y, hy, h⟩ := except_bind_ok.1 h
  refine ⟨x, y, hx, hy, ?_⟩
  cases hp : p x.value <;> simp only [hp] at h ⊢ <;> cases h <;> rfl

theorem VM.jump_eq {v : VM} {p : Word → Bool} {c t : Mode} {x y : ReadOperand}
    (hx : v.resolveRead 1 c = .ok x) (hy : v.resolveRead 2 t = .ok y) :
    v.jump p c t = .ok { v with
        hwm := max (max (max v.hwm v.pc.toInt) x.top) y.top
        pc := if p x.value then y.value else wrap (v.pc.toInt + 1 + (2 : Nat)) } := by
  cases hp : p x.value <;> simp only [VM.jump, hx, hy, hp, bind, Except.bind, pure, Except.pure] <;> rfl

theorem VM.jump_error {v : VM} {p : Word → Bool} {c t : Mode} {e : Abort} (h : v.jump p c t = .error e) :
    v.resolveRead 1 c = .error e ∨ ∃ x, v.resolveRead 1 c = .ok x ∧ v.resolveRead 2 t = .error e := by
  unfold VM.jump at h
  rcases except_bind_error.1 h with h | ⟨x, hx, h⟩
  · exact .inl h
  · rcases except_bind_error.1 h with h | ⟨y, -, h⟩
    · exact .inr ⟨x, hx, h⟩
    · cases h

/-- A completed ARB. -/
theorem VM.adjustBase_ok {v v' : VM} {a : Mode} (h : v.adjustBase a = .ok v') :
    ∃ x, v.resolveRead 1 a = .ok x ∧
      v' = { v with
        hwm := max (max v.hwm v.pc.toInt) x.top
        rb := aluSum v.rb x.value
        pc := wrap (v.pc.toInt + 1 + (1 : Nat)) } := by
  unfold VM.adjustBase at h
  obtain ⟨x, hx, h⟩ := except_bind_ok.1 h
  cases h
  exact ⟨x, hx, rfl⟩

theorem VM.adjustBase_eq {v : VM} {a : Mode} {x : ReadOperand} (hx : v.resolveRead 1 a = .ok x) :
    v.adjustBase a = .ok { v with
        hwm := max (max v.hwm v.pc.toInt) x.top
        rb := aluSum v.rb x.value
        pc := wrap (v.pc.toInt + 1 + (1 : Nat)) } := by
  simp only [VM.adjustBase, hx]
  rfl

theorem VM.adjustBase_error {v : VM} {a : Mode} {e : Abort} (h : v.adjustBase a = .error e) :
    v.resolveRead 1 a = .error e := by
  unfold VM.adjustBase at h
  rcases except_bind_error.1 h with h | ⟨x, -, h⟩
  · exact h
  · cases h

/-- Only IN suspends (R118). -/
theorem VM.effect_suspend {v : VM} {i : Instr} (h : v.effect i = .error .suspend) :
    ∃ d, i = .inp d ∧ v.inq = [] := by
  have noRead : ∀ k m, v.resolveRead k m ≠ .error .suspend := by
    intro k m hk
    obtain ⟨a, -, h⟩ := VM.resolveRead_error hk
    cases h
  have noWrite : ∀ k m, v.resolveWrite k m ≠ .error .suspend := by
    intro k m hk
    rcases VM.resolveWrite_error hk with ⟨-, h⟩ | ⟨a, -, h⟩ <;> cases h
  have noBinary : ∀ f a b d, v.binary f a b d ≠ .error .suspend := by
    intro f a b d hb
    rcases VM.binary_error hb with h | ⟨x, -, h | ⟨y, -, h⟩⟩
    · exact noRead _ _ h
    · exact noRead _ _ h
    · exact noWrite _ _ h
  have noJump : ∀ p c t, v.jump p c t ≠ .error .suspend := by
    intro p c t hj
    rcases VM.jump_error hj with h | ⟨x, -, h⟩ <;> exact noRead _ _ h
  cases i with
  | add a b d => exact absurd h (noBinary _ _ _ _)
  | mul a b d => exact absurd h (noBinary _ _ _ _)
  | lt a b d => exact absurd h (noBinary _ _ _ _)
  | eq a b d => exact absurd h (noBinary _ _ _ _)
  | inp d => exact ⟨d, rfl, (VM.input_suspend.1 h).2⟩
  | out a => exact absurd (VM.output_error h) (noRead _ _)
  | jt c t => exact absurd h (noJump _ _ _)
  | jf c t => exact absurd h (noJump _ _ _)
  | arb a => exact absurd (VM.adjustBase_error h) (noRead _ _)
  | halt => cases h

/-- What a completed instruction leaves alone, and what it can change, field by field (R35). -/
theorem VM.effect_ok_frame {v v' : VM} {i : Instr} (h : v.effect i = .ok v') :
    v'.fault = v.fault ∧ v.hwm ≤ v'.hwm ∧
      ((∃ d, i = .inp d) ∨ v'.inq = v.inq) ∧ ((∃ a, i = .out a) ∨ v'.outq = v.outq) ∧
      ((∃ a, i = .arb a) ∨ v'.rb = v.rb) ∧
      ((i = .halt ∧ v'.runState = .halted ∧ v'.pc = v.pc) ∨ (i ≠ .halt ∧ v'.runState = v.runState)) ∧
      (v'.mem = v.mem ∨ ∃ d t x, i.writeMode = some d ∧ v.resolveWrite i.arity d = .ok t ∧
        v'.mem = v.mem.write t.target.toNat x) := by
  have hbin : ∀ {f a b d}, v.binary f a b d = .ok v' →
      v'.fault = v.fault ∧ v.hwm ≤ v'.hwm ∧ v'.inq = v.inq ∧ v'.outq = v.outq ∧ v'.rb = v.rb ∧
        v'.runState = v.runState ∧
        ∃ t x, v.resolveWrite 3 d = .ok t ∧ v'.mem = v.mem.write t.target.toNat x := by
    intro f a b d hb
    obtain ⟨x, y, t, -, -, ht, rfl⟩ := VM.binary_ok hb
    exact ⟨rfl, by simp, rfl, rfl, rfl, rfl, t, _, ht, rfl⟩
  have hjmp : ∀ {p c t}, v.jump p c t = .ok v' →
      v'.fault = v.fault ∧ v.hwm ≤ v'.hwm ∧ v'.inq = v.inq ∧ v'.outq = v.outq ∧ v'.rb = v.rb ∧
        v'.runState = v.runState ∧ v'.mem = v.mem := by
    intro p c t hj
    obtain ⟨x, y, -, -, rfl⟩ := VM.jump_ok hj
    exact ⟨rfl, by simp, rfl, rfl, rfl, rfl, rfl⟩
  cases i with
  | add a b d =>
    obtain ⟨h1, h2, h3, h4, h5, h6, t, x, ht, hm⟩ := hbin h
    exact ⟨h1, h2, .inr h3, .inr h4, .inr h5, .inr ⟨by simp, h6⟩, .inr ⟨d, t, x, rfl, ht, hm⟩⟩
  | mul a b d =>
    obtain ⟨h1, h2, h3, h4, h5, h6, t, x, ht, hm⟩ := hbin h
    exact ⟨h1, h2, .inr h3, .inr h4, .inr h5, .inr ⟨by simp, h6⟩, .inr ⟨d, t, x, rfl, ht, hm⟩⟩
  | lt a b d =>
    obtain ⟨h1, h2, h3, h4, h5, h6, t, x, ht, hm⟩ := hbin h
    exact ⟨h1, h2, .inr h3, .inr h4, .inr h5, .inr ⟨by simp, h6⟩, .inr ⟨d, t, x, rfl, ht, hm⟩⟩
  | eq a b d =>
    obtain ⟨h1, h2, h3, h4, h5, h6, t, x, ht, hm⟩ := hbin h
    exact ⟨h1, h2, .inr h3, .inr h4, .inr h5, .inr ⟨by simp, h6⟩, .inr ⟨d, t, x, rfl, ht, hm⟩⟩
  | inp d =>
    obtain ⟨t, x, xs, ht, -, rfl⟩ := VM.input_ok h
    exact ⟨rfl, by simp, .inl ⟨d, rfl⟩, .inr rfl, .inr rfl, .inr ⟨by simp, rfl⟩, .inr ⟨d, t, x, rfl, ht, rfl⟩⟩
  | out a =>
    obtain ⟨x, -, rfl⟩ := VM.output_ok h
    exact ⟨rfl, by simp, .inr rfl, .inl ⟨a, rfl⟩, .inr rfl, .inr ⟨by simp, rfl⟩, .inl rfl⟩
  | jt c t =>
    obtain ⟨h1, h2, h3, h4, h5, h6, hm⟩ := hjmp h
    exact ⟨h1, h2, .inr h3, .inr h4, .inr h5, .inr ⟨by simp, h6⟩, .inl hm⟩
  | jf c t =>
    obtain ⟨h1, h2, h3, h4, h5, h6, hm⟩ := hjmp h
    exact ⟨h1, h2, .inr h3, .inr h4, .inr h5, .inr ⟨by simp, h6⟩, .inl hm⟩
  | arb a =>
    obtain ⟨x, -, rfl⟩ := VM.adjustBase_ok h
    exact ⟨rfl, by simp, .inr rfl, .inr rfl, .inl ⟨a, rfl⟩, .inr ⟨by simp, rfl⟩, .inl rfl⟩
  | halt =>
    cases h
    exact ⟨rfl, le_max_left _ _, .inr rfl, .inr rfl, .inr rfl, .inl ⟨rfl, rfl, rfl⟩, .inl rfl⟩

/-- A completed instruction keeps the invariant of a running instance. -/
theorem VM.effect_ok_inv {v v' : VM} {i : Instr} (hv : v.Inv) (hf : v.fault = none) (hr : v.runState = .running)
    (h : v.effect i = .ok v') :
    v'.Inv := by
  have hpc := word_toInt_le v.pc
  have build : ∀ (w : VM), w.fault = v.fault → (w.runState = .running ∨ w.runState = .halted ∧ v.fault = none) →
      w.mem.wf = true → v.hwm ≤ w.hwm → w.hwm ≤ Config.addrMax → w.mem.boundedBy w.hwm → w.Inv := by
    intro w hf hs hm hl hh hb
    refine ⟨hm, le_trans hv.hwmLow hl, hh, hb, ?_, ?_⟩
    · intro hne
      rcases hs with hs | ⟨-, hn⟩
      · exact hs
      · exact absurd (hf.trans hn) hne
    · intro hw
      rcases hs with hs | ⟨hs, -⟩ <;> simp [hs] at hw
  have hbin : ∀ {f a b d}, v.binary f a b d = .ok v' → v'.Inv := by
    intro f a b d hb
    obtain ⟨x, y, t, hx, hy, ht, rfl⟩ := VM.binary_ok hb
    have h1 := VM.resolveRead_top hx
    have h2 := VM.resolveRead_top hy
    have h3 := VM.resolveWrite_range ht
    refine build _ rfl (.inl hr) (Memory.write_wf _ _ hv.memCanonical) (by simp) ?_ ?_
    · simp only [max_le_iff]
      exact ⟨⟨⟨⟨⟨hv.hwmHigh, hpc⟩, h1.2⟩, h2.2⟩, h3.2.2⟩, h3.1.2⟩
    · have := Memory.boundedBy_write (a := t.target.toNat) (v := f x.value y.value) hv.memBelowHwm
      refine Memory.boundedBy_mono this ?_
      have h0 : ((t.target.toNat : Nat) : Int) = t.target := Int.toNat_of_nonneg h3.1.1
      rw [h0]
      exact max_le (by simp) (le_max_right _ _)
  have hjmp : ∀ {p c t}, v.jump p c t = .ok v' → v'.Inv := by
    intro p c t hj
    obtain ⟨x, y, hx, hy, rfl⟩ := VM.jump_ok hj
    have h1 := VM.resolveRead_top hx
    have h2 := VM.resolveRead_top hy
    refine build _ rfl (.inl hr) hv.memCanonical (by simp) ?_ (Memory.boundedBy_mono hv.memBelowHwm (by simp))
    simp only [max_le_iff]
    exact ⟨⟨⟨hv.hwmHigh, hpc⟩, h1.2⟩, h2.2⟩
  cases i with
  | add a b d => exact hbin h
  | mul a b d => exact hbin h
  | lt a b d => exact hbin h
  | eq a b d => exact hbin h
  | jt c t => exact hjmp h
  | jf c t => exact hjmp h
  | inp d =>
    obtain ⟨t, x, xs, ht, -, rfl⟩ := VM.input_ok h
    have h3 := VM.resolveWrite_range ht
    refine build _ rfl (.inl hr) (Memory.write_wf _ _ hv.memCanonical) (by simp) ?_ ?_
    · simp only [max_le_iff]
      exact ⟨⟨⟨hv.hwmHigh, hpc⟩, h3.2.2⟩, h3.1.2⟩
    · refine Memory.boundedBy_mono (Memory.boundedBy_write hv.memBelowHwm) ?_
      have h0 : ((t.target.toNat : Nat) : Int) = t.target := Int.toNat_of_nonneg h3.1.1
      rw [h0]
      exact max_le (by simp) (le_max_right _ _)
  | out a =>
    obtain ⟨x, hx, rfl⟩ := VM.output_ok h
    have h1 := VM.resolveRead_top hx
    refine build _ rfl (.inl hr) hv.memCanonical (by simp) ?_ (Memory.boundedBy_mono hv.memBelowHwm (by simp))
    simp only [max_le_iff]
    exact ⟨⟨hv.hwmHigh, hpc⟩, h1.2⟩
  | arb a =>
    obtain ⟨x, hx, rfl⟩ := VM.adjustBase_ok h
    have h1 := VM.resolveRead_top hx
    refine build _ rfl (.inl hr) hv.memCanonical (by simp) ?_ (Memory.boundedBy_mono hv.memBelowHwm (by simp))
    simp only [max_le_iff]
    exact ⟨⟨hv.hwmHigh, hpc⟩, h1.2⟩
  | halt =>
    cases h
    refine build _ rfl (.inr ⟨rfl, hf⟩) hv.memCanonical (le_max_left _ _) ?_
      (Memory.boundedBy_mono hv.memBelowHwm (le_max_left _ _))
    exact max_le hv.hwmHigh hpc

end Sys2Proof.Machine
end

