-- ==== Sys2Proof/Laws/Engine.lean ====
section
/-! SUPPORT. What one step of the engine can do. -/

namespace Sys2Proof.Machine

/-- The outcome of the instruction at pc, before it is committed: fetch, decode, effect. -/
def VM.stepEffect (v : VM) : Except Abort VM :=
  match v.fetch with
  | .error a => .error a
  | .ok w =>
    match decode w with
    | .error c => .error (.raise c)
    | .ok i => v.effect i

/-- A step of the engine commits the outcome of the instruction at pc on the instance in focus, and changes nothing else. -/
theorem engineStep_eq (s : State) : s.engineStep = .next (s.withVm (s.vm.conclude s.vm.stepEffect)) := by
  unfold State.engineStep VM.stepEffect
  cases hf : s.vm.fetch with
  | error a => rfl
  | ok w =>
    cases hd : decode w with
    | error c => simp only [hd]; rfl
    | ok i => simp only [hd]; exact exec_eq_next i s

theorem step_of_engineHasStep {s : State} (h : s.engineHasStep) :
    step s = .next (s.withVm (s.vm.conclude s.vm.stepEffect)) := by
  obtain ⟨ha, hc⟩ := h
  rw [← engineStep_eq]
  rcases ha with ha | ⟨c, ha⟩
  · simp only [step, ha, if_pos hc]
  · simp only [step, ha, if_pos hc]

/-- The fetch at a legal pc. -/
theorem VM.fetch_ok {v : VM} {w : Word} : v.fetch = .ok w ↔ 0 ≤ v.pc.toInt ∧ v.mem.read v.pc.toInt.toNat = w := by
  unfold VM.fetch
  rw [VM.memRead_ok]
  exact ⟨fun h => ⟨h.1.1, h.2⟩, fun h => ⟨⟨h.1, word_toInt_le v.pc⟩, h.2⟩⟩

theorem VM.fetch_error {v : VM} {e : Abort} :
    v.fetch = .error e ↔ v.pc.toInt < 0 ∧ e = .raise (.addressError v.pc.toInt) := by
  unfold VM.fetch
  rw [VM.memRead_error]
  constructor
  · rintro ⟨h, rfl⟩
    refine ⟨?_, rfl⟩
    by_contra hn
    exact h ⟨by omega, word_toInt_le v.pc⟩
  · rintro ⟨h, rfl⟩
    exact ⟨fun hl => by have := hl.1; omega, rfl⟩

theorem VM.stepEffect_ok {v v' : VM} (h : v.stepEffect = .ok v') :
    ∃ w i, v.fetch = .ok w ∧ decode w = .ok i ∧ v.effect i = .ok v' := by
  unfold VM.stepEffect at h
  split at h
  · cases h
  · next w hw =>
    split at h
    · cases h
    · next i hi => exact ⟨w, i, hw, hi, h⟩

/-- Only an IN with an empty input FIFO suspends (R118). -/
theorem VM.stepEffect_suspend {v : VM} (h : v.stepEffect = .error .suspend) :
    ∃ w d, v.fetch = .ok w ∧ decode w = .ok (.inp d) ∧ v.inq = [] := by
  unfold VM.stepEffect at h
  split at h
  · next a ha =>
    cases h
    obtain ⟨-, h⟩ := VM.fetch_error.1 ha
    cases h
  · next w hw =>
    split at h
    · cases h
    · next i hi =>
      obtain ⟨d, rfl, hq⟩ := VM.effect_suspend h
      exact ⟨w, d, hw, hi, hq⟩

/-- The three outcomes of the instruction at pc (R117). -/
theorem VM.stepEffect_cases (v : VM) :
    (∃ c, v.stepEffect = .error (.raise c)) ∨ v.stepEffect = .error .suspend ∨ ∃ v', v.stepEffect = .ok v' := by
  rcases h : v.stepEffect with (c | _) | v'
  · exact .inl ⟨c, rfl⟩
  · exact .inr (.inl rfl)
  · exact .inr (.inr ⟨v', rfl⟩)

/-- A step of the engine keeps the invariant of the instance. -/
theorem VM.conclude_stepEffect_inv {v : VM} (hv : v.Inv) (hc : v.canStep) : (v.conclude v.stepEffect).Inv := by
  obtain ⟨hf, hr, hg⟩ := hc
  rcases v.stepEffect_cases with ⟨c, h⟩ | h | ⟨v', h⟩
  · rw [h]
    refine ⟨hv.memCanonical, hv.hwmLow, hv.hwmHigh, hv.memBelowHwm, fun _ => hr, fun hw => ?_⟩
    exact absurd (hw.symm.trans hr) (by simp)
  · rw [h]
    obtain ⟨w, d, hw, -, -⟩ := VM.stepEffect_suspend h
    refine ⟨hv.memCanonical, hv.hwmLow, hv.hwmHigh, hv.memBelowHwm, fun hn => absurd hf hn, fun _ => ?_⟩
    exact ⟨hf, (VM.fetch_ok.1 hw).1, hg⟩
  · rw [h]
    obtain ⟨w, i, -, -, he⟩ := VM.stepEffect_ok h
    exact VM.effect_ok_inv hv hf hr he

end Sys2Proof.Machine
end

