-- ==== Sys2Proof/Laws/Places.lean ====
section
/-! SUPPORT. The places of the network: what focusing, moving on and modifying a place do to the list of places. -/

namespace Sys2Proof.Machine

theorem State.mem_slots {s : State} {q : Slot} : q ∈ s.slots ↔ q ∈ s.lower ∨ q = s.slot ∨ q ∈ s.higher := by
  simp [State.slots]

theorem State.slots_length (s : State) : s.slots.length = s.size := by
  simp [State.slots, State.size]; omega

@[simp] theorem State.slots_index (s : State) : s.slots[s.index]? = some s.slot := by
  simp [State.slots, State.index]

theorem State.slots_withVm (s : State) (v : VM) :
    (s.withVm v).slots = s.lower ++ { s.slot with vm := v } :: s.higher := rfl

/-- Replacing the slot in focus leaves every other place alone. -/
theorem getElem?_append_cons_ne {l h : List Slot} {x y : Slot} {j : Nat} (hj : j ≠ l.length) :
    (l ++ x :: h)[j]? = (l ++ y :: h)[j]? := by
  rcases Nat.lt_or_ge j l.length with hlt | hge
  · rw [List.getElem?_append_left hlt, List.getElem?_append_left hlt]
  · obtain ⟨k, rfl⟩ : ∃ k, j = l.length + (k + 1) := ⟨j - l.length - 1, by omega⟩
    rw [List.getElem?_append_right (by omega), List.getElem?_append_right (by omega)]
    have : l.length + (k + 1) - l.length = k + 1 := by omega
    simp [this]

theorem State.slots_withVm_ne {s : State} {v : VM} {j : Nat} (hj : j ≠ s.index) :
    (s.withVm v).slots[j]? = s.slots[j]? := getElem?_append_cons_ne hj

theorem cutAt_eq {i : Nat} {xs l h : List Slot} {x : Slot} :
    cutAt i xs = some (l, x, h) ↔ xs = l ++ x :: h ∧ l.length = i := by
  induction xs generalizing i l x h with
  | nil => simp [cutAt]
  | cons y ys ih =>
    cases i with
    | zero =>
      simp only [cutAt, Option.some.injEq, Prod.mk.injEq]
      constructor
      · rintro ⟨rfl, rfl, rfl⟩; exact ⟨rfl, rfl⟩
      · rintro ⟨h1, h2⟩
        obtain rfl := List.eq_nil_of_length_eq_zero h2
        simp at h1
        exact ⟨rfl, h1.1, h1.2⟩
    | succ i =>
      simp only [cutAt]
      cases hc : cutAt i ys with
      | none =>
        simp only [reduceCtorEq, false_iff]
        rintro ⟨h1, h2⟩
        cases l with
        | nil => simp at h2
        | cons z l =>
          simp at h1 h2
          rw [(ih (l := l) (x := x) (h := h)).2 ⟨h1.2, h2⟩] at hc
          cases hc
      | some r =>
        obtain ⟨l', x', h'⟩ := r
        have hr := ih.1 hc
        simp only [Option.some.injEq, Prod.mk.injEq]
        constructor
        · rintro ⟨rfl, rfl, rfl⟩
          exact ⟨by rw [hr.1]; rfl, by simp [hr.2]⟩
        · rintro ⟨h1, h2⟩
          cases l with
          | nil => simp at h2
          | cons z l =>
            simp at h1 h2
            have := (ih (l := l) (x := x) (h := h)).2 ⟨h1.2, h2⟩
            rw [hc] at this
            cases this
            exact ⟨by rw [h1.1], rfl, rfl⟩

/-- Focusing finds every place of the list and leaves the list alone. -/
theorem State.focus_of_slot {s : State} {i : Nat} {q : Slot} (h : s.slots[i]? = some q) :
    ∃ l r, s.slots = l ++ q :: r ∧ l.length = i ∧ s.focus i = some { s with lower := l, slot := q, higher := r } := by
  have hi : i < s.slots.length := by
    rcases Nat.lt_or_ge i s.slots.length with h' | h'
    · exact h'
    · rw [List.getElem?_eq_none h'] at h; cases h
  have hq : s.slots[i] = q := by simpa [List.getElem?_eq_getElem hi] using h
  refine ⟨s.slots.take i, s.slots.drop (i + 1), ?_, by simp; omega, ?_⟩
  · rw [← hq]; simp
  · unfold State.focus
    rw [cutAt_eq.2 ⟨(by rw [← hq]; simp : s.slots = s.slots.take i ++ q :: s.slots.drop (i + 1)), by simp; omega⟩]

theorem State.focus_eq {s t : State} {i : Nat} (h : s.focus i = some t) :
    t.slots = s.slots ∧ t.index = i ∧ s.slots[i]? = some t.slot ∧ t.egress = s.egress ∧ t.netFault = s.netFault ∧
      t.activity = s.activity ∧ t.reply = s.reply := by
  unfold State.focus at h
  split at h
  · next l x r hc =>
    cases h
    obtain ⟨h1, h2⟩ := cutAt_eq.1 hc
    refine ⟨h1.symm, h2, ?_, rfl, rfl, rfl, rfl⟩
    rw [h1, ← h2]; simp
  · cases h

@[simp] theorem State.focus_index (s : State) : s.focus s.index = some s := by
  unfold State.focus
  rw [show cutAt s.index s.slots = some (s.lower, s.slot, s.higher) from cutAt_eq.2 ⟨rfl, rfl⟩]

theorem State.rewind_eq (s : State) :
    s.rewind.slots = s.slots ∧ s.rewind.index = 0 ∧ s.rewind.egress = s.egress ∧ s.rewind.netFault = s.netFault ∧
      s.rewind.activity = s.activity ∧ s.rewind.reply = s.reply := by
  unfold State.rewind
  split
  · next h => simp [State.index, h]
  · next x xs h => simp [State.slots, State.index, h]

/-- The router's move to the next place, or to the boundary after the last. -/
theorem State.nextPlace_eq (s : State) (c : RoundCtl) :
    (s.nextPlace c).slots = s.slots ∧ (s.nextPlace c).egress = s.egress ∧ (s.nextPlace c).netFault = s.netFault ∧
      (s.index + 1 < s.size → (s.nextPlace c).index = s.index + 1 ∧ (s.nextPlace c).activity = .turn c) ∧
      (s.index + 1 = s.size → (s.nextPlace c).index = s.index ∧ (s.nextPlace c).activity = .deliver c) := by
  unfold State.nextPlace
  split
  · next h => simp [State.slots, State.index, State.size, h]
  · next x xs h => simp [State.slots, State.index, State.size, h]

theorem modifyAt_getElem? (f : Slot → Slot) (i j : Nat) (xs : List Slot) :
    (modifyAt i f xs)[j]? = if j = i then (xs[j]?).map f else xs[j]? := by
  induction xs generalizing i j with
  | nil => simp [modifyAt]
  | cons x xs ih =>
    cases i with
    | zero => cases j <;> simp [modifyAt]
    | succ i => cases j <;> simp [modifyAt, ih]

theorem modifyAt_length (f : Slot → Slot) (i : Nat) (xs : List Slot) : (modifyAt i f xs).length = xs.length := by
  induction xs generalizing i with
  | nil => simp [modifyAt]
  | cons x xs ih => cases i <;> simp [modifyAt, ih]

theorem modifyAt_append_lt (f : Slot → Slot) {i : Nat} {l h : List Slot} (hi : i < l.length) :
    modifyAt i f (l ++ h) = modifyAt i f l ++ h := by
  induction l generalizing i with
  | nil => simp at hi
  | cons x xs ih =>
    cases i with
    | zero => rfl
    | succ i => simp [modifyAt, ih (by simpa using hi)]

theorem modifyAt_append_ge (f : Slot → Slot) {i : Nat} {l h : List Slot} (hi : l.length ≤ i) :
    modifyAt i f (l ++ h) = l ++ modifyAt (i - l.length) f h := by
  induction l generalizing i with
  | nil => simp
  | cons x xs ih =>
    cases i with
    | zero => simp at hi
    | succ i => simp [modifyAt, ih (by simpa using hi)]

/-- Modifying a place changes that place alone. -/
theorem State.modifySlot_eq (s : State) (i : Nat) (f : Slot → Slot) :
    (s.modifySlot i f).slots = modifyAt i f s.slots ∧ (s.modifySlot i f).index = s.index ∧
      (s.modifySlot i f).size = s.size ∧ (s.modifySlot i f).egress = s.egress ∧
      (s.modifySlot i f).netFault = s.netFault ∧ (s.modifySlot i f).activity = s.activity ∧
      (s.modifySlot i f).reply = s.reply := by
  unfold State.modifySlot
  split
  · next h => simp [State.slots, State.index, State.size, modifyAt_append_lt f h, modifyAt_length]
  · split
    · next h =>
      have h0 : i - s.lower.length = 0 := by omega
      simp [State.slots, State.index, State.size, modifyAt_append_ge f (Nat.le_of_eq h.symm), h0, modifyAt]
    · next h1 h2 =>
      obtain ⟨k, hk⟩ : ∃ k, i - s.lower.length = k + 1 := ⟨i - s.lower.length - 1, by omega⟩
      have hk' : i - s.lower.length - 1 = k := by omega
      simp [State.slots, State.index, State.size, modifyAt_append_ge f (by omega : s.lower.length ≤ i), hk, modifyAt,
        modifyAt_length]

theorem State.mapSlots_slots (s : State) (f : Slot → Slot) : (s.mapSlots f).slots = s.slots.map f := by
  simp [State.mapSlots, State.slots]

end Sys2Proof.Machine
end

