-- ==== Sys2Proof/Laws/Router.lean ====
section
/-! SUPPORT. What the router's steps do, place by place. -/

namespace Sys2Proof.Machine

/-- Cutting loses nothing: the packets' Words and the rest, in order, are what was cut. -/
theorem cutPackets_append (ws : List Word) :
    ws = (cutPackets ws).1.flatMap (fun p => [p.1, p.2.1, p.2.2]) ++ (cutPackets ws).2 := by
  induction ws using cutPackets.induct with
  | case1 d x y rest ih =>
    simp only [cutPackets, List.flatMap_cons, List.cons_append, List.nil_append]
    rw [← ih]
  | case2 rest h =>
    unfold cutPackets
    split
    · next d x y r => exact absurd rfl (h d x y r)
    · rfl

/-- Fewer than three Words remain. -/
theorem cutPackets_rest (ws : List Word) : (cutPackets ws).2.length < 3 := by
  induction ws using cutPackets.induct with
  | case1 d x y rest ih => simpa [cutPackets] using ih
  | case2 rest h =>
    unfold cutPackets
    split
    · next d x y r => exact absurd rfl (h d x y r)
    · match rest, h with
      | [], _ => simp
      | [a], _ => simp
      | [a, b], _ => simp
      | a :: b :: c :: r, h => exact absurd rfl (h a b c r)

/-- What is staged at place j when packets are sent. -/
def stagedFor (ps : List Packet) (j : Nat) : List Word :=
  (ps.filter (fun p => decide (p.1.toInt = (j : Int)))).flatMap (fun p => [p.2.1, p.2.2])

/-- What leaves the network when packets are sent by instance i of n. -/
def leaving (ps : List Packet) (i n : Nat) : List EgressPacket :=
  (ps.filter (fun p => decide (p.1.toInt < 0 ∨ (n : Int) ≤ p.1.toInt))).map
    (fun p => { src := i, dest := p.1, x := p.2.1, y := p.2.2 })

/-- One packet: staged for its destination, or put in egress. -/
theorem State.sendPacket_eq (s : State) (p : Packet) :
    (s.sendPacket p).index = s.index ∧ (s.sendPacket p).size = s.size ∧ (s.sendPacket p).netFault = s.netFault ∧
      (s.sendPacket p).egress = s.egress ++ leaving [p] s.index s.size ∧
      ∀ (j : Nat) (q : Slot), s.slots[j]? = some q →
        (s.sendPacket p).slots[j]? = some { q with stage := q.stage ++ stagedFor [p] j } := by
  unfold State.sendPacket
  split
  · next h =>
    obtain ⟨h1, h2, h3, h4, h5, h6, h7⟩ :=
      s.modifySlot_eq p.1.toInt.toNat (fun q => { q with stage := q.stage ++ [p.2.1, p.2.2] })
    refine ⟨h2, h3, h5, ?_, ?_⟩
    · have hn : ¬(p.1.toInt < 0 ∨ (s.size : Int) ≤ p.1.toInt) := by omega
      rw [h4]; simp [leaving, hn]
    · intro j q hj
      rw [h1, modifyAt_getElem?, hj]
      by_cases hjp : j = p.1.toInt.toNat
      · have : p.1.toInt = (j : Int) := by omega
        simp [hjp, stagedFor, Int.toNat_of_nonneg h.1]
      · have : ¬p.1.toInt = (j : Int) := by omega
        simp [hjp, stagedFor, this]
  · next h =>
    refine ⟨rfl, rfl, rfl, ?_, ?_⟩
    · have hn : p.1.toInt < 0 ∨ (s.size : Int) ≤ p.1.toInt := by omega
      simp [leaving, hn]
    · intro j q hj
      have hlt : j < s.size := by
        rw [← s.slots_length]
        rcases Nat.lt_or_ge j s.slots.length with h' | h'
        · exact h'
        · rw [List.getElem?_eq_none h'] at hj; cases hj
      have : ¬p.1.toInt = (j : Int) := by omega
      have hs : ∀ e, ({ s with egress := e } : State).slots = s.slots := fun _ => rfl
      simp [stagedFor, this, hs, hj]

/-- Packets sent one after the other. -/
theorem State.sendPackets_eq (ps : List Packet) (s : State) :
    (ps.foldl State.sendPacket s).index = s.index ∧ (ps.foldl State.sendPacket s).size = s.size ∧
      (ps.foldl State.sendPacket s).netFault = s.netFault ∧
      (ps.foldl State.sendPacket s).egress = s.egress ++ leaving ps s.index s.size ∧
      ∀ (j : Nat) (q : Slot), s.slots[j]? = some q →
        (ps.foldl State.sendPacket s).slots[j]? = some { q with stage := q.stage ++ stagedFor ps j } := by
  induction ps generalizing s with
  | nil => simp [leaving, stagedFor]
  | cons p ps ih =>
    obtain ⟨h1, h2, h3, h4, h5⟩ := s.sendPacket_eq p
    obtain ⟨i1, i2, i3, i4, i5⟩ := ih (s.sendPacket p)
    rw [List.foldl_cons]
    refine ⟨i1.trans h1, i2.trans h2, i3.trans h3, ?_, ?_⟩
    · rw [i4, h1, h2, h4, List.append_assoc]
      simp only [leaving, ← List.map_append, ← List.filter_append, List.singleton_append]
    · intro j q hq
      rw [i5 j _ (h5 j q hq)]
      simp only [stagedFor, List.append_assoc, ← List.flatMap_append, ← List.filter_append, List.singleton_append]

/-- The end of a turn without a fault (R215 to R218). -/
theorem State.endTurn_eq {s : State} (c : RoundCtl) (hf : s.vm.fault = none) :
    let ws := s.slot.partialOut ++ s.vm.outq
    let c' := { c with sent := c.sent + (cutPackets ws).1.length }
    let t := s.endTurn c
    t.slots.length = s.slots.length ∧
      (∀ (j : Nat) (q : Slot), s.slots[j]? = some q → t.slots[j]? = some
        { vm := if j = s.index then q.vm.drain else q.vm
          stage := q.stage ++ stagedFor (cutPackets ws).1 j
          partialOut := if j = s.index then (cutPackets ws).2 else q.partialOut }) ∧
      t.egress = s.egress ++ leaving (cutPackets ws).1 s.index s.size ∧ t.netFault = s.netFault ∧
      (s.index + 1 < s.size → t.index = s.index + 1 ∧ t.activity = .turn c') ∧
      (s.index + 1 = s.size → t.index = s.index ∧ t.activity = .deliver c') := by
  intro ws c' t
  have ht : t = ((cutPackets ws).1.foldl State.sendPacket
      { s with slot := { s.slot with vm := s.vm.drain, partialOut := (cutPackets ws).2 } }).nextPlace c' := by
    simp only [t, State.endTurn, hf, ws, c']
  obtain ⟨h1, h2, h3, h4, h5⟩ := State.sendPackets_eq (cutPackets ws).1
    { s with slot := { s.slot with vm := s.vm.drain, partialOut := (cutPackets ws).2 } }
  obtain ⟨n1, n2, n3, n4, n5⟩ := State.nextPlace_eq ((cutPackets ws).1.foldl State.sendPacket
      { s with slot := { s.slot with vm := s.vm.drain, partialOut := (cutPackets ws).2 } }) c'
  rw [← ht] at n1 n2 n3 n4 n5
  rw [h1, h2] at n4 n5
  refine ⟨?_, ?_, n2.trans h4, n3.trans h3, n4, n5⟩
  · rw [n1, State.slots_length, h2, State.slots_length]; rfl
  · intro j q hq
    rw [n1]
    by_cases hj : j = s.index
    · subst hj
      rw [State.slots_index] at hq
      cases hq
      rw [h5 s.index { s.slot with vm := s.vm.drain, partialOut := (cutPackets ws).2 } (State.slots_index _)]
      simp
    · have hq' : ({ s with slot := { s.slot with vm := s.vm.drain, partialOut := (cutPackets ws).2 } } : State).slots[j]? =
          some q := by
        rw [← hq]; exact getElem?_append_cons_ne hj
      rw [h5 j q hq']
      simp [hj]

/-- What a step is (R120, R188, R224). -/
theorem step_cases {s t : State} (h : step s = .next t) :
    (s.engineHasStep ∧ t = s.withVm (s.vm.conclude s.vm.stepEffect)) ∨
      (s.activity = .run ∧ ¬s.vm.canStep ∧ t = s.endRun) ∨
      (∃ c, s.activity = .turn c ∧ t = s.beginTurn c) ∨
      (∃ c, s.activity = .turnRun c ∧ ¬s.vm.canStep ∧ t = s.endTurn c) ∨
      (∃ c, s.activity = .deliver c ∧ t = s.endRound c) := by
  cases ha : s.activity with
  | idle => simp [step, ha] at h
  | run =>
    by_cases hc : s.vm.canStep
    · have he : s.engineHasStep := ⟨.inl ha, hc⟩
      rw [step_of_engineHasStep he] at h
      cases h
      exact .inl ⟨he, rfl⟩
    · simp only [step, ha, if_neg hc] at h
      cases h
      exact .inr (.inl ⟨rfl, hc, rfl⟩)
  | turn c =>
    simp only [step, ha] at h
    cases h
    exact .inr (.inr (.inl ⟨c, rfl, rfl⟩))
  | turnRun c =>
    by_cases hc : s.vm.canStep
    · have he : s.engineHasStep := ⟨.inr ⟨c, ha⟩, hc⟩
      rw [step_of_engineHasStep he] at h
      cases h
      exact .inl ⟨he, rfl⟩
    · simp only [step, ha, if_neg hc] at h
      cases h
      exact .inr (.inr (.inr (.inl ⟨c, rfl, hc, rfl⟩)))
  | deliver c =>
    simp only [step, ha] at h
    cases h
    exact .inr (.inr (.inr (.inr ⟨c, rfl, rfl⟩)))

/-- The places after the round boundary (R219). -/
theorem State.endRound_slots (s : State) (c : RoundCtl) : (s.endRound c).slots = s.slots.map Slot.deliver := by
  have h : (s.mapSlots Slot.deliver).slots = s.slots.map Slot.deliver := s.mapSlots_slots _
  unfold State.endRound
  simp only
  split
  · unfold State.startRound
    split
    · exact h
    · exact (State.rewind_eq _).1.trans h
  · exact h

/-- What a step does to one instance: nothing, a step of its engine, the drain of its outputs, the start of its turn, or
the delivery of what is staged for it. -/
theorem step_slot {s t : State} {j : Nat} {q q' : Slot} (h : step s = .next t) (hq : s.slots[j]? = some q)
    (hq' : t.slots[j]? = some q') :
    q'.vm = q.vm ∨ q'.vm = q.vm.drain ∨
      (j = s.index ∧ s.engineHasStep ∧ q = s.slot ∧ q'.vm = q.vm.conclude q.vm.stepEffect) ∨
      (j = s.index ∧ (∃ c, s.activity = .turn c) ∧ q.vm.runState ≠ .halted ∧ q'.vm = q.vm.feedSentinel.resume) ∨
      ((∃ c, s.activity = .deliver c) ∧ q'.vm = { q.vm with inq := q.vm.inq ++ q.stage }) := by
  have focusCase : ∀ v : VM, t.slots = (s.withVm v).slots →
      q'.vm = q.vm ∨ (j = s.index ∧ q = s.slot ∧ q'.vm = v) := by
    intro v ht
    rw [ht] at hq'
    by_cases hj : j = s.index
    · subst hj
      rw [State.slots_index] at hq
      have := State.slots_index (s.withVm v)
      rw [show (s.withVm v).index = s.index from rfl, hq'] at this
      cases hq; cases this
      exact .inr ⟨rfl, rfl, rfl⟩
    · rw [State.slots_withVm_ne hj, hq] at hq'
      cases hq'
      exact .inl rfl
  rcases step_cases h with ⟨he, rfl⟩ | ⟨-, -, rfl⟩ | ⟨c, hc, rfl⟩ | ⟨c, hc, hn, rfl⟩ | ⟨c, hc, rfl⟩
  · rcases focusCase _ rfl with h | ⟨h1, h2, h3⟩
    · exact .inl h
    · subst h2
      exact .inr (.inr (.inl ⟨h1, he, rfl, h3⟩))
  · rcases focusCase s.vm.drain rfl with h | ⟨h1, h2, h3⟩
    · exact .inl h
    · subst h2
      exact .inr (.inl h3)
  · unfold State.beginTurn at hq' focusCase
    split at hq'
    · rw [(State.nextPlace_eq s c).1, hq] at hq'
      cases hq'
      exact .inl rfl
    · next hh =>
      rw [if_neg hh] at focusCase
      rcases focusCase s.vm.feedSentinel.resume rfl with h | ⟨h1, h2, h3⟩
      · exact .inl h
      · subst h2
        exact .inr (.inr (.inr (.inl ⟨h1, ⟨c, hc⟩, hh, h3⟩)))
  · cases hf : s.vm.fault with
    | none =>
      obtain ⟨-, hs, -⟩ := State.endTurn_eq c hf
      rw [hs j q hq] at hq'
      cases hq'
      by_cases hj : j = s.index
      · exact .inr (.inl (by simp [hj]))
      · exact .inl (by simp [hj])
    | some r =>
      have ht : (s.endTurn c).slots = (s.withVm s.vm.drain).slots := by
        unfold State.endTurn
        rw [hf]
        rfl
      rcases focusCase s.vm.drain ht with h | ⟨h1, h2, h3⟩
      · exact .inl h
      · subst h2
        exact .inr (.inl h3)
  · rw [State.endRound_slots, List.getElem?_map, hq] at hq'
    cases hq'
    exact .inr (.inr (.inr (.inr ⟨⟨c, hc⟩, rfl⟩)))

/-- The committed step of an engine, as one of the three outcomes of R117. -/
theorem VM.conclude_stepEffect_cases (v : VM) :
    (∃ c, v.conclude v.stepEffect = v.takeFault c) ∨
      (v.conclude v.stepEffect = v.suspend ∧ v.inq = [] ∧ ∃ w d, v.fetch = .ok w ∧ decode w = .ok (.inp d)) ∨
      (∃ v' w i, v.conclude v.stepEffect = v' ∧ v.fetch = .ok w ∧ decode w = .ok i ∧ v.effect i = .ok v') := by
  rcases v.stepEffect_cases with ⟨c, h⟩ | h | ⟨v', h⟩
  · exact .inl ⟨c, by rw [h]; rfl⟩
  · obtain ⟨w, d, hw, hd, hq⟩ := VM.stepEffect_suspend h
    exact .inr (.inl ⟨by rw [h]; rfl, hq, w, d, hw, hd⟩)
  · obtain ⟨w, i, hw, hi, he⟩ := VM.stepEffect_ok h
    exact .inr (.inr ⟨v', w, i, by rw [h]; rfl, hw, hi, he⟩)

end Sys2Proof.Machine
end

