-- ==== Sys2Proof/Laws/Transact.lean ====
section
/-! SUPPORT. What a transaction of the host does, place by place. -/

namespace Sys2Proof.Machine

theorem transact_idle {c : HostCmd} {s t : State} (h : transact c s = .next t) : s.activity = .idle := by
  unfold transact at h
  split at h <;> first | assumption | cases h

theorem State.onVm_next {s t : State} {i : Nat} {f : State → State} (h : s.onVm i f = .next t) :
    ∃ u, s.focus i = some u ∧ t = f u := by
  unfold State.onVm at h
  split at h
  · next u hu => cases h; exact ⟨u, hu, rfl⟩
  · cases h

theorem State.onVm_of_slot {s : State} {i : Nat} {q : Slot} (h : s.slots[i]? = some q) (f : State → State) :
    ∃ u, s.focus i = some u ∧ u.slot = q ∧ s.onVm i f = .next (f u) := by
  obtain ⟨l, r, -, -, hf⟩ := State.focus_of_slot h
  exact ⟨_, hf, rfl, by simp only [State.onVm, hf]⟩

/-- What a transaction is. -/
theorem transact_cases {c : HostCmd} {s t : State} (h : transact c s = .next t) :
    (∃ i image pc0 rb0 u, c = .load i image pc0 rb0 ∧ s.focus i = some u ∧ t = u.loadImage image pc0 rb0) ∨
      (∃ i v u, c = .enqueueInput i v ∧ s.focus i = some u ∧ t = (u.withVm (u.vm.enqueueInput v)).answer .done) ∨
      (∃ i u, c = .run i ∧ s.focus i = some u ∧ t = u.startRun) ∨
      (∃ i a u, c = .peekMemory i a ∧ s.focus i = some u ∧ t = u.peek a) ∨
      (∃ i a v u, c = .pokeMemory i a v ∧ s.focus i = some u ∧ t = u.pokeMem a v) ∨
      (∃ n image, c = .netInit n image ∧ s.netInit n image = .next t) ∨
      (∃ loop, (c = .round ∧ loop = false ∨ c = .runNetwork ∧ loop = true) ∧ t = s.startRound loop) ∨
      (c = .takeEgress ∧ t = { s.answer (.egress s.egress) with egress := [] }) := by
  have ha := transact_idle h
  cases c with
  | load i image pc0 rb0 =>
    simp only [transact, ha] at h
    obtain ⟨u, hu, ht⟩ := State.onVm_next h
    exact .inl ⟨i, image, pc0, rb0, u, rfl, hu, ht⟩
  | enqueueInput i v =>
    simp only [transact, ha] at h
    obtain ⟨u, hu, ht⟩ := State.onVm_next h
    exact .inr (.inl ⟨i, v, u, rfl, hu, ht⟩)
  | run i =>
    simp only [transact, ha] at h
    obtain ⟨u, hu, ht⟩ := State.onVm_next h
    exact .inr (.inr (.inl ⟨i, u, rfl, hu, ht⟩))
  | peekMemory i a =>
    simp only [transact, ha] at h
    obtain ⟨u, hu, ht⟩ := State.onVm_next h
    exact .inr (.inr (.inr (.inl ⟨i, a, u, rfl, hu, ht⟩)))
  | pokeMemory i a v =>
    simp only [transact, ha] at h
    obtain ⟨u, hu, ht⟩ := State.onVm_next h
    exact .inr (.inr (.inr (.inr (.inl ⟨i, a, v, u, rfl, hu, ht⟩))))
  | netInit n image =>
    simp only [transact, ha] at h
    exact .inr (.inr (.inr (.inr (.inr (.inl ⟨n, image, rfl, h⟩)))))
  | round =>
    simp only [transact, ha] at h
    cases h
    exact .inr (.inr (.inr (.inr (.inr (.inr (.inl ⟨false, .inl ⟨rfl, rfl⟩, rfl⟩))))))
  | runNetwork =>
    simp only [transact, ha] at h
    cases h
    exact .inr (.inr (.inr (.inr (.inr (.inr (.inl ⟨true, .inr ⟨rfl, rfl⟩, rfl⟩))))))
  | takeEgress =>
    simp only [transact, ha] at h
    cases h
    exact .inr (.inr (.inr (.inr (.inr (.inr (.inr ⟨rfl, rfl⟩))))))

theorem State.startRound_slots (s : State) (loop : Bool) : (s.startRound loop).slots = s.slots := by
  unfold State.startRound
  split
  · rfl
  · exact (State.rewind_eq s).1

/-- What a transaction other than net_init does to one instance: nothing, or, on the instance it addresses, what load,
enqueue_input, the entry of run() or poke_memory do. -/
theorem transact_slot {c : HostCmd} {s t : State} {j : Nat} {q q' : Slot} (h : transact c s = .next t)
    (hq : s.slots[j]? = some q) (hq' : t.slots[j]? = some q') :
    (∃ n image, c = .netInit n image) ∨
      (q'.stage = q.stage ∧ q'.partialOut = q.partialOut ∧
        (q'.vm = q.vm ∨
          (∃ image pc0 rb0, c = .load j image pc0 rb0 ∧ imageOk image = true ∧
            q'.vm = VM.load (image.map wrap) pc0 rb0) ∨
          (∃ v, c = .enqueueInput j v ∧ q'.vm = q.vm.enqueueInput v) ∨
          (c = .run j ∧ q'.vm = q.vm.resume) ∨
          (∃ a v, c = .pokeMemory j a v ∧ legalAddress a ∧ q'.vm = q.vm.store a v))) := by
  have focusCase : ∀ {i : Nat} {u : State} {v : VM}, s.focus i = some u → t.slots = (u.withVm v).slots →
      q' = q ∨ (j = i ∧ u.slot = q ∧ q' = { q with vm := v }) := by
    intro i u v hu ht
    obtain ⟨h1, h2, h3, -⟩ := State.focus_eq hu
    rw [ht] at hq'
    by_cases hj : j = i
    · subst hj
      rw [hq] at h3
      cases h3
      have := State.slots_index (u.withVm v)
      rw [show (u.withVm v).index = u.index from rfl, h2, hq'] at this
      cases this
      exact .inr ⟨rfl, rfl, rfl⟩
    · rw [State.slots_withVm_ne (by rw [h2]; exact hj), h1, hq] at hq'
      cases hq'
      exact .inl rfl
  have sameCase : t.slots = s.slots → q' = q := by
    intro ht
    rw [ht, hq] at hq'
    exact (Option.some.inj hq').symm
  rcases transact_cases h with ⟨i, image, pc0, rb0, u, rfl, hu, rfl⟩ | ⟨i, v, u, rfl, hu, rfl⟩ | ⟨i, u, rfl, hu, rfl⟩ |
    ⟨i, a, u, rfl, hu, rfl⟩ | ⟨i, a, v, u, rfl, hu, rfl⟩ | ⟨n, image, rfl, -⟩ | ⟨loop, -, rfl⟩ | ⟨rfl, rfl⟩
  · refine .inr ?_
    unfold State.loadImage at hq' focusCase sameCase
    split at hq'
    · next hi =>
      rw [if_pos hi] at focusCase
      rcases focusCase (v := VM.load (image.map wrap) pc0 rb0) hu rfl with rfl | ⟨rfl, -, rfl⟩
      · exact ⟨rfl, rfl, .inl rfl⟩
      · exact ⟨rfl, rfl, .inr (.inl ⟨image, pc0, rb0, rfl, hi, rfl⟩)⟩
    · next hi =>
      rw [if_neg hi] at sameCase
      obtain rfl := sameCase (State.focus_eq hu).1
      exact ⟨rfl, rfl, .inl rfl⟩
  · rcases focusCase (v := u.vm.enqueueInput v) hu rfl with rfl | ⟨rfl, rfl, rfl⟩
    · exact .inr ⟨rfl, rfl, .inl rfl⟩
    · exact .inr ⟨rfl, rfl, .inr (.inr (.inl ⟨v, rfl, rfl⟩))⟩
  · rcases focusCase (v := u.vm.resume) hu rfl with rfl | ⟨rfl, rfl, rfl⟩
    · exact .inr ⟨rfl, rfl, .inl rfl⟩
    · exact .inr ⟨rfl, rfl, .inr (.inr (.inr (.inl ⟨rfl, rfl⟩)))⟩
  · have ht : (u.peek a).slots = s.slots := by
      unfold State.peek
      split <;> exact (State.focus_eq hu).1
    obtain rfl := sameCase ht
    exact .inr ⟨rfl, rfl, .inl rfl⟩
  · unfold State.pokeMem at hq' focusCase sameCase
    split at hq'
    · next ha =>
      rw [if_pos ha] at focusCase
      rcases focusCase (v := u.vm.poke a v) hu rfl with rfl | ⟨rfl, rfl, rfl⟩
      · exact .inr ⟨rfl, rfl, .inl rfl⟩
      · exact .inr ⟨rfl, rfl, .inr (.inr (.inr (.inr ⟨a, v, rfl, ha, by simp only [State.vm, VM.poke, if_pos ha]⟩)))⟩
    · next ha =>
      rw [if_neg ha] at sameCase
      obtain rfl := sameCase (State.focus_eq hu).1
      exact .inr ⟨rfl, rfl, .inl rfl⟩
  · exact .inl ⟨n, image, rfl⟩
  · obtain rfl := sameCase (State.startRound_slots s loop)
    exact .inr ⟨rfl, rfl, .inl rfl⟩
  · obtain rfl := sameCase rfl
    exact .inr ⟨rfl, rfl, .inl rfl⟩

/-- load keeps the invariant of an instance. -/
theorem VM.load_inv {image : List Word} {pc0 rb0 : Word} (h : (image.length : Int) ≤ Config.addrMax + 1) :
    (VM.load image pc0 rb0).Inv := by
  refine ⟨Memory.ofImage_wf image, ?_, ?_, ?_, ?_, ?_⟩
  · simp only [VM.load]; omega
  · simp only [VM.load]; omega
  · intro a ha
    simp only [VM.load, Memory.read_ofImage] at ha ⊢
    have : a < image.length := by
      by_contra hn
      exact ha (by simp [List.getD, List.getElem?_eq_none (by omega : image.length ≤ a)])
    omega
  · intro hf; exact absurd rfl hf
  · intro hw; simp [VM.load] at hw

/-- poke_memory keeps the invariant of an instance. -/
theorem VM.store_inv {v : VM} {a : Int} {x : Word} (hv : v.Inv) (ha : legalAddress a) : (v.store a x).Inv := by
  refine ⟨Memory.write_wf _ _ hv.memCanonical, ?_, max_le hv.hwmHigh ha.2, ?_, hv.faultRunning, ?_⟩
  · exact le_trans hv.hwmLow (le_max_left _ _)
  · have := Memory.boundedBy_write (a := a.toNat) (v := x) hv.memBelowHwm
    rwa [Int.toNat_of_nonneg ha.1] at this
  · intro hw
    obtain ⟨h1, h2, h3⟩ := hv.waiting hw
    exact ⟨h1, h2, le_trans h3 (le_max_left _ _)⟩

theorem VM.resume_inv {v : VM} (hv : v.Inv) : v.resume.Inv := by
  rcases v.resume_cases with ⟨hf, hw, h⟩ | ⟨-, h⟩
  · rw [h]
    exact ⟨hv.memCanonical, hv.hwmLow, hv.hwmHigh, hv.memBelowHwm, fun _ => rfl, fun h => by cases h⟩
  · rw [h]; exact hv

/-- The invariant says nothing of the FIFOs. -/
theorem VM.inv_of_queues {v : VM} (hv : v.Inv) (inq outq : List Word) : VM.Inv { v with inq := inq, outq := outq } :=
  ⟨hv.memCanonical, hv.hwmLow, hv.hwmHigh, hv.memBelowHwm, hv.faultRunning, hv.waiting⟩

end Sys2Proof.Machine
end

