-- ==== Sys2Proof/Laws/PerInstr.lean ====
section
/-! SUPPORT. One lemma per constructor of Instr: the canonical word has at most five decimal digits, its low two are the
opcode, and the table of R98 gives the instruction's arity. -/

namespace Sys2Proof

/-- The shape of an instruction's canonical word (R81, R85). -/
def Laws.EncodeShape.Statement (i : Instr) : Prop :=
  (encode i).toNat = i.encodeNat ∧ i.encodeNat < 100000 ∧ opcodeOf (encode i) = i.opcode ∧
    arityTable.lookup i.opcode = some i.arity ∧ i.modes.length = i.arity

theorem Mode.digit_le (m : Mode) : m.digit ≤ 2 := by cases m <;> decide

/-- The three facts follow from the bound on the digits. -/
theorem Laws.encodeShape_of {i : Instr} (ho : i.opcode < 100) (hm : modesValue i.modes ≤ 222)
    (ha : arityTable.lookup i.opcode = some i.arity) (hl : i.modes.length = i.arity) : Laws.EncodeShape.Statement i := by
  have he : i.encodeNat = i.opcode + 100 * modesValue i.modes := rfl
  have h1 : (encode i).toNat = i.encodeNat := by
    rw [encode, BitVec.toNat_ofNat, Nat.mod_eq_of_lt (by omega)]
  exact ⟨h1, by omega, by rw [opcodeOf, h1]; omega, ha, hl⟩

theorem Laws.modesValue_le3 (a b d : Mode) : modesValue [a, b, d] ≤ 222 := by
  have := a.digit_le; have := b.digit_le; have := d.digit_le
  simp only [modesValue]; omega

theorem Laws.modesValue_le2 (a b : Mode) : modesValue [a, b] ≤ 222 := by
  have := a.digit_le; have := b.digit_le
  simp only [modesValue]; omega

theorem Laws.modesValue_le1 (a : Mode) : modesValue [a] ≤ 222 := by
  have := a.digit_le
  simp only [modesValue]; omega

theorem Laws.EncodeShape.add (a b d : Mode) : Laws.EncodeShape.Statement (.add a b d) :=
  Laws.encodeShape_of (by simp [Instr.opcode]) (Laws.modesValue_le3 a b d) rfl rfl

theorem Laws.EncodeShape.mul (a b d : Mode) : Laws.EncodeShape.Statement (.mul a b d) :=
  Laws.encodeShape_of (by simp [Instr.opcode]) (Laws.modesValue_le3 a b d) rfl rfl

theorem Laws.EncodeShape.inp (d : Mode) : Laws.EncodeShape.Statement (.inp d) :=
  Laws.encodeShape_of (by simp [Instr.opcode]) (Laws.modesValue_le1 d) rfl rfl

theorem Laws.EncodeShape.out (a : Mode) : Laws.EncodeShape.Statement (.out a) :=
  Laws.encodeShape_of (by simp [Instr.opcode]) (Laws.modesValue_le1 a) rfl rfl

theorem Laws.EncodeShape.jt (c t : Mode) : Laws.EncodeShape.Statement (.jt c t) :=
  Laws.encodeShape_of (by simp [Instr.opcode]) (Laws.modesValue_le2 c t) rfl rfl

theorem Laws.EncodeShape.jf (c t : Mode) : Laws.EncodeShape.Statement (.jf c t) :=
  Laws.encodeShape_of (by simp [Instr.opcode]) (Laws.modesValue_le2 c t) rfl rfl

theorem Laws.EncodeShape.lt (a b d : Mode) : Laws.EncodeShape.Statement (.lt a b d) :=
  Laws.encodeShape_of (by simp [Instr.opcode]) (Laws.modesValue_le3 a b d) rfl rfl

theorem Laws.EncodeShape.eq (a b d : Mode) : Laws.EncodeShape.Statement (.eq a b d) :=
  Laws.encodeShape_of (by simp [Instr.opcode]) (Laws.modesValue_le3 a b d) rfl rfl

theorem Laws.EncodeShape.arb (a : Mode) : Laws.EncodeShape.Statement (.arb a) :=
  Laws.encodeShape_of (by simp [Instr.opcode]) (Laws.modesValue_le1 a) rfl rfl

theorem Laws.EncodeShape.halt : Laws.EncodeShape.Statement .halt :=
  Laws.encodeShape_of (by decide) (by decide) rfl rfl

end Sys2Proof
end

