-- ==== Sys2Proof/Laws/Decode.lean ====
section
/-! SUPPORT. What the decoder answers, mode digit by mode digit: when each of its shapes succeeds and when it faults. -/

namespace Sys2Proof

theorem Mode.digit_lt (m : Mode) : m.digit < 3 := by cases m <;> decide

/-- The digits that are a mode's are 0, 1 and 2 (R84). -/
theorem Mode.exists_digit (n : Nat) : (∃ m : Mode, n = m.digit) ↔ n ≤ 2 := by
  constructor
  · rintro ⟨m, rfl⟩
    have := m.digit_lt
    omega
  · intro h
    match n, h with
    | 0, _ => exact ⟨.position, rfl⟩
    | 1, _ => exact ⟨.immediate, rfl⟩
    | 2, _ => exact ⟨.relative, rfl⟩

theorem faultBind_ok {α β : Type} {x : Except FaultCause α} {f : α → Except FaultCause β} {b : β} :
    (x >>= f) = .ok b ↔ ∃ a, x = .ok a ∧ f a = .ok b := by
  cases x <;> simp [bind, Except.bind]

theorem faultBind_error {α β : Type} {x : Except FaultCause α} {f : α → Except FaultCause β} {c : FaultCause} :
    (x >>= f) = .error c ↔ x = .error c ∨ ∃ a, x = .ok a ∧ f a = .error c := by
  cases x <;> simp [bind, Except.bind]

theorem decodeReadMode_ok {w : Word} {i : Nat} {m : Mode} : decodeReadMode w i = .ok m ↔ modeDigit w i = m.digit := by
  unfold decodeReadMode
  generalize modeDigit w i = d
  match d with
  | 0 => cases m <;> simp [Mode.digit]
  | 1 => cases m <;> simp [Mode.digit]
  | 2 => cases m <;> simp [Mode.digit]
  | n + 3 => cases m <;> simp [Mode.digit]

theorem decodeWriteMode_ok {w : Word} {i : Nat} {m : Mode} :
    decodeWriteMode w i = .ok m ↔ modeDigit w i = m.digit ∧ m ≠ .immediate := by
  unfold decodeWriteMode
  generalize modeDigit w i = d
  match d with
  | 0 => cases m <;> simp [Mode.digit]
  | 1 => cases m <;> simp [Mode.digit]
  | 2 => cases m <;> simp [Mode.digit]
  | n + 3 => cases m <;> simp [Mode.digit]

theorem decodeReadMode_error {w : Word} {i : Nat} {c : FaultCause} :
    decodeReadMode w i = .error c ↔ 2 < modeDigit w i ∧ c = .invalidParameterMode i (modeDigit w i) := by
  unfold decodeReadMode
  generalize modeDigit w i = d
  match d with
  | 0 => simp
  | 1 => simp
  | 2 => simp
  | n + 3 => simp [eq_comm]

theorem decodeWriteMode_error {w : Word} {i : Nat} {c : FaultCause} :
    decodeWriteMode w i = .error c ↔
      (2 < modeDigit w i ∨ modeDigit w i = 1) ∧ c = .invalidParameterMode i (modeDigit w i) := by
  unfold decodeWriteMode
  generalize modeDigit w i = d
  match d with
  | 0 => simp
  | 1 => simp [eq_comm]
  | 2 => simp
  | n + 3 => simp [eq_comm]

/-- Read, read, write: the instruction answered has the modes of the three digits. -/
theorem decodeReadReadWrite_ok {w : Word} {k : Mode → Mode → Mode → Instr} {i : Instr} :
    decodeReadReadWrite w k = .ok i ↔
      ∃ a b d, modeDigit w 1 = a.digit ∧ modeDigit w 2 = b.digit ∧ modeDigit w 3 = d.digit ∧ d ≠ .immediate ∧
        i = k a b d := by
  unfold decodeReadReadWrite
  simp only [faultBind_ok, decodeReadMode_ok, decodeWriteMode_ok, pure, Except.pure, Except.ok.injEq]
  constructor
  · rintro ⟨a, ha, b, hb, d, ⟨hd, hn⟩, rfl⟩
    exact ⟨a, b, d, ha, hb, hd, hn, rfl⟩
  · rintro ⟨a, b, d, ha, hb, hd, hn, rfl⟩
    exact ⟨a, ha, b, hb, d, ⟨hd, hn⟩, rfl⟩

/-- Read, read. -/
theorem decodeReadRead_ok {w : Word} {k : Mode → Mode → Instr} {i : Instr} :
    decodeReadRead w k = .ok i ↔ ∃ a b, modeDigit w 1 = a.digit ∧ modeDigit w 2 = b.digit ∧ i = k a b := by
  unfold decodeReadRead
  simp only [faultBind_ok, decodeReadMode_ok, pure, Except.pure, Except.ok.injEq]
  constructor
  · rintro ⟨a, ha, b, hb, rfl⟩
    exact ⟨a, b, ha, hb, rfl⟩
  · rintro ⟨a, b, ha, hb, rfl⟩
    exact ⟨a, ha, b, hb, rfl⟩

/-- One read operand. -/
theorem decodeRead_ok {w : Word} {k : Mode → Instr} {i : Instr} :
    (do return k (← decodeReadMode w 1) : Except FaultCause Instr) = .ok i ↔ ∃ a, modeDigit w 1 = a.digit ∧ i = k a := by
  simp only [faultBind_ok, decodeReadMode_ok, pure, Except.pure, Except.ok.injEq]
  constructor
  · rintro ⟨a, ha, rfl⟩
    exact ⟨a, ha, rfl⟩
  · rintro ⟨a, ha, rfl⟩
    exact ⟨a, ha, rfl⟩

/-- One write target. -/
theorem decodeWrite_ok {w : Word} {k : Mode → Instr} {i : Instr} :
    (do return k (← decodeWriteMode w 1) : Except FaultCause Instr) = .ok i ↔
      ∃ d, modeDigit w 1 = d.digit ∧ d ≠ .immediate ∧ i = k d := by
  simp only [faultBind_ok, decodeWriteMode_ok, pure, Except.pure, Except.ok.injEq]
  constructor
  · rintro ⟨a, ⟨ha, hn⟩, rfl⟩
    exact ⟨a, ha, hn, rfl⟩
  · rintro ⟨a, ha, hn, rfl⟩
    exact ⟨a, ⟨ha, hn⟩, rfl⟩

/-- Read, read, write: the lowest-numbered illegal digit is the fault (R88). -/
theorem decodeReadReadWrite_error {w : Word} {k : Mode → Mode → Mode → Instr} {c : FaultCause} :
    decodeReadReadWrite w k = .error c ↔
      (2 < modeDigit w 1 ∧ c = .invalidParameterMode 1 (modeDigit w 1)) ∨
        (modeDigit w 1 ≤ 2 ∧ 2 < modeDigit w 2 ∧ c = .invalidParameterMode 2 (modeDigit w 2)) ∨
        (modeDigit w 1 ≤ 2 ∧ modeDigit w 2 ≤ 2 ∧ (2 < modeDigit w 3 ∨ modeDigit w 3 = 1) ∧
          c = .invalidParameterMode 3 (modeDigit w 3)) := by
  unfold decodeReadReadWrite
  simp only [faultBind_error, decodeReadMode_ok, decodeReadMode_error, decodeWriteMode_error, pure, Except.pure,
    reduceCtorEq, and_false, exists_false, or_false, exists_and_right, Mode.exists_digit]
  constructor
  · rintro (h | ⟨h1, h2 | ⟨h2, h3⟩⟩)
    · exact .inl h
    · exact .inr (.inl ⟨h1, h2⟩)
    · exact .inr (.inr ⟨h1, h2, h3⟩)
  · rintro (h | ⟨h1, h2⟩ | ⟨h1, h2, h3⟩)
    · exact .inl h
    · exact .inr ⟨h1, .inl h2⟩
    · exact .inr ⟨h1, .inr ⟨h2, h3⟩⟩

/-- Read, read. -/
theorem decodeReadRead_error {w : Word} {k : Mode → Mode → Instr} {c : FaultCause} :
    decodeReadRead w k = .error c ↔
      (2 < modeDigit w 1 ∧ c = .invalidParameterMode 1 (modeDigit w 1)) ∨
        (modeDigit w 1 ≤ 2 ∧ 2 < modeDigit w 2 ∧ c = .invalidParameterMode 2 (modeDigit w 2)) := by
  unfold decodeReadRead
  simp only [faultBind_error, decodeReadMode_ok, decodeReadMode_error, pure, Except.pure, reduceCtorEq, and_false,
    exists_false, or_false, exists_and_right, Mode.exists_digit]

/-- One read operand. -/
theorem decodeRead_error {w : Word} {k : Mode → Instr} {c : FaultCause} :
    (do return k (← decodeReadMode w 1) : Except FaultCause Instr) = .error c ↔
      2 < modeDigit w 1 ∧ c = .invalidParameterMode 1 (modeDigit w 1) := by
  simp only [faultBind_error, decodeReadMode_error, pure, Except.pure, reduceCtorEq, and_false, exists_false, or_false]

/-- One write target. -/
theorem decodeWrite_error {w : Word} {k : Mode → Instr} {c : FaultCause} :
    (do return k (← decodeWriteMode w 1) : Except FaultCause Instr) = .error c ↔
      (2 < modeDigit w 1 ∨ modeDigit w 1 = 1) ∧ c = .invalidParameterMode 1 (modeDigit w 1) := by
  simp only [faultBind_error, decodeWriteMode_error, pure, Except.pure, reduceCtorEq, and_false, exists_false, or_false]

end Sys2Proof
end

