-- ==== Sys2Proof/Laws/Runs.lean ====
section
/-! SUPPORT. A whole run() as a relation between the instance at its entry and at its return, what more input and earlier
output do to it, and what feeding and running an instance is. -/

namespace Sys2Proof.Machine

/-- The instance after one step of its engine. -/
def VM.next (v : VM) : VM := v.conclude v.stepEffect

/-- A run() from v ends at w: steps while the loop guard holds (R188). -/
inductive VM.Runs : VM → VM → Prop where
  | stop {v : VM} : ¬v.canStep → VM.Runs v v
  | step {v w : VM} : v.canStep → VM.Runs v.next w → VM.Runs v w

/-- The instance with ys behind its input and o before its output. -/
def VM.extend (v : VM) (ys o : List Word) : VM := { v with inq := v.inq ++ ys, outq := o ++ v.outq }

/-- A suspended instance (R25, R191). -/
abbrev VM.waits (v : VM) : Prop := v.fault = none ∧ v.runState = .waitingForInput

theorem VM.Runs.ends {v w : VM} (h : VM.Runs v w) : ¬w.canStep := by
  induction h with
  | stop h => exact h
  | step _ _ ih => exact ih

theorem VM.Runs.eq_of_stop {v w : VM} (h : ¬v.canStep) (hr : VM.Runs v w) : w = v := by
  cases hr with
  | stop => rfl
  | step h' => exact absurd h' h

theorem VM.extend_resolveRead (v : VM) (ys o : List Word) (i : Nat) (m : Mode) :
    (v.extend ys o).resolveRead i m = v.resolveRead i m := VM.resolveRead_congr rfl rfl rfl _ _

theorem VM.extend_resolveWrite (v : VM) (ys o : List Word) (i : Nat) (m : Mode) :
    (v.extend ys o).resolveWrite i m = v.resolveWrite i m := VM.resolveWrite_congr rfl rfl rfl _ _

theorem VM.extend_binary (f : Word → Word → Word) (a b d : Mode) (v : VM) (ys o : List Word) :
    (v.extend ys o).binary f a b d = (v.binary f a b d).map (fun x => x.extend ys o) := by
  simp only [VM.binary, VM.extend_resolveRead, VM.extend_resolveWrite]
  cases v.resolveRead 1 a with
  | error e => rfl
  | ok x =>
    cases v.resolveRead 2 b with
    | error e => rfl
    | ok y =>
      cases v.resolveWrite 3 d with
      | error e => rfl
      | ok t => rfl

theorem VM.extend_jump (p : Word → Bool) (c t : Mode) (v : VM) (ys o : List Word) :
    (v.extend ys o).jump p c t = (v.jump p c t).map (fun x => x.extend ys o) := by
  simp only [VM.jump, VM.extend_resolveRead]
  cases v.resolveRead 1 c with
  | error e => rfl
  | ok x =>
    cases v.resolveRead 2 t with
    | error e => rfl
    | ok y => cases h : p x.value <;> simp [bind, Except.bind, pure, Except.pure, h, Except.map] <;> rfl

theorem VM.extend_output (a : Mode) (v : VM) (ys o : List Word) :
    (v.extend ys o).output a = (v.output a).map (fun x => x.extend ys o) := by
  simp only [VM.output, VM.extend_resolveRead]
  cases v.resolveRead 1 a with
  | error e => rfl
  | ok x => simp [bind, Except.bind, pure, Except.pure, Except.map, VM.extend, VM.advance, VM.outPush, VM.touch]

theorem VM.extend_adjustBase (a : Mode) (v : VM) (ys o : List Word) :
    (v.extend ys o).adjustBase a = (v.adjustBase a).map (fun x => x.extend ys o) := by
  simp only [VM.adjustBase, VM.extend_resolveRead]
  cases v.resolveRead 1 a with
  | error e => rfl
  | ok x => rfl

theorem VM.extend_input (d : Mode) (v : VM) (ys o : List Word) (h : v.input d ≠ .error .suspend ∨ ys = []) :
    (v.extend ys o).input d = (v.input d).map (fun x => x.extend ys o) := by
  simp only [VM.input, VM.extend_resolveWrite] at h ⊢
  cases ht : v.resolveWrite 1 d with
  | error e => rfl
  | ok t =>
    simp only [ht, bind, Except.bind] at h ⊢
    cases hq : v.inq with
    | nil =>
      rcases h with h | rfl
      · exact absurd (by simp [VM.inPop, hq]) h
      · simp [VM.inPop, hq, VM.extend, Except.map]
    | cons x xs =>
      simp [VM.inPop, hq, VM.extend, Except.map, pure, Except.pure, VM.advance, VM.store, VM.touch]

/-- An instruction that does not suspend does the same with more input behind and earlier output before (R123). -/
theorem VM.extend_effect (i : Instr) (v : VM) (ys o : List Word) (h : v.effect i ≠ .error .suspend ∨ ys = []) :
    (v.extend ys o).effect i = (v.effect i).map (fun x => x.extend ys o) := by
  cases i with
  | add => exact VM.extend_binary ..
  | mul => exact VM.extend_binary ..
  | lt => exact VM.extend_binary ..
  | eq => exact VM.extend_binary ..
  | jt => exact VM.extend_jump ..
  | jf => exact VM.extend_jump ..
  | out => exact VM.extend_output ..
  | arb => exact VM.extend_adjustBase ..
  | inp => exact VM.extend_input _ _ _ _ h
  | halt => rfl

theorem VM.extend_stepEffect (v : VM) (ys o : List Word) (h : v.stepEffect ≠ .error .suspend ∨ ys = []) :
    (v.extend ys o).stepEffect = v.stepEffect.map (fun x => x.extend ys o) := by
  unfold VM.stepEffect at h ⊢
  have hf : (v.extend ys o).fetch = v.fetch := rfl
  rw [hf]
  cases hv : v.fetch with
  | error e => rfl
  | ok w =>
    simp only [hv] at h ⊢
    cases hd : decode w with
    | error c => rfl
    | ok i =>
      simp only [hd] at h ⊢
      exact VM.extend_effect i v ys o h

/-- A step that does not suspend is the same step with more input behind and earlier output before. -/
theorem VM.extend_next (v : VM) (ys o : List Word) (h : v.stepEffect ≠ .error .suspend ∨ ys = []) :
    (v.extend ys o).next = v.next.extend ys o := by
  unfold VM.next
  rw [VM.extend_stepEffect v ys o h]
  rcases v.stepEffect with (c | _) | v' <;> rfl

theorem VM.next_of_suspend {v : VM} (h : v.stepEffect = .error .suspend) : v.next = v.suspend ∧ v.inq = [] := by
  refine ⟨by unfold VM.next; rw [h]; rfl, ?_⟩
  obtain ⟨_, _, _, _, h⟩ := VM.stepEffect_suspend h
  exact h

/-- A step that does not suspend does not leave the instance waiting. -/
theorem VM.next_not_waits {v : VM} (hc : v.canStep) (hs : v.stepEffect ≠ .error .suspend) : ¬v.next.waits := by
  rcases v.stepEffect_cases with ⟨c, h⟩ | h | ⟨v', h⟩
  · unfold VM.next
    rw [h]
    rintro ⟨h, _⟩
    cases h
  · exact absurd h hs
  · obtain ⟨_, i, _, _, he⟩ := VM.stepEffect_ok h
    obtain ⟨_, _, _, _, _, h6, _⟩ := VM.effect_ok_frame he
    unfold VM.next
    rw [h]
    rintro ⟨_, h7⟩
    rw [VM.conclude_ok] at h7
    rcases h6 with ⟨_, h6, _⟩ | ⟨_, h6⟩
    · rw [h6] at h7; cases h7
    · rw [h6, hc.2.1] at h7; cases h7

theorem VM.suspend_not_canStep (v : VM) : ¬v.suspend.canStep := by
  rintro ⟨_, h, _⟩
  cases h

/-- Earlier output in front changes nothing of a run. -/
theorem VM.Runs.prefixOutput {v w : VM} (o : List Word) (h : VM.Runs v w) : VM.Runs (v.extend [] o) (w.extend [] o) := by
  induction h with
  | stop h => exact .stop h
  | step h _ ih =>
    refine .step h ?_
    rw [VM.extend_next _ _ _ (.inr rfl)]
    exact ih

/-- More input changes nothing of a run that does not end waiting. -/
theorem VM.Runs.moreInput {v w : VM} (ys : List Word) (h : VM.Runs v w) (hw : ¬w.waits) :
    VM.Runs (v.extend ys []) (w.extend ys []) := by
  induction h with
  | stop h => exact .stop h
  | @step v w h hr ih =>
    by_cases hs : v.stepEffect = .error .suspend
    · rw [(VM.next_of_suspend hs).1] at hr
      obtain rfl := VM.Runs.eq_of_stop v.suspend_not_canStep hr
      exact absurd ⟨h.1, rfl⟩ hw
    · refine .step h ?_
      rw [VM.extend_next _ _ _ (.inl hs)]
      exact ih hw

/-- A run that ends waiting has emptied the input. -/
theorem VM.Runs.waits_empty {v w : VM} (h : VM.Runs v w) (hv : ¬v.waits) (hw : w.waits) : w.inq = [] := by
  induction h with
  | stop h => exact absurd hw hv
  | @step v w h hr ih =>
    by_cases hs : v.stepEffect = .error .suspend
    · obtain ⟨he, hq⟩ := VM.next_of_suspend hs
      rw [he] at hr
      obtain rfl := VM.Runs.eq_of_stop v.suspend_not_canStep hr
      exact hq
    · exact ih (VM.next_not_waits h hs) hw

/-- Where a run ends waiting, the run with more input goes on as the resumed instance does. -/
theorem VM.Runs.resumed {v w z : VM} (ys : List Word) (h : VM.Runs v w) (hv : ¬v.waits) (hw : w.waits)
    (hz : VM.Runs { w with runState := .running, inq := ys } z) : VM.Runs (v.extend ys []) z := by
  induction h with
  | stop h => exact absurd hw hv
  | @step v w h hr ih =>
    by_cases hs : v.stepEffect = .error .suspend
    · obtain ⟨he, hq⟩ := VM.next_of_suspend hs
      rw [he] at hr
      obtain rfl := VM.Runs.eq_of_stop v.suspend_not_canStep hr
      have e : ({ v.suspend with runState := .running, inq := ys } : VM) = v.extend ys [] := by
        simp only [VM.extend, hq, List.nil_append, VM.suspend, ← h.2.1]
      rw [e] at hz
      exact hz
    · refine .step h ?_
      rw [VM.extend_next _ _ _ (.inl hs)]
      exact ih (VM.next_not_waits h hs) hw hz

/-- A step while a run() of the host is in progress. -/
theorem step_run {u : State} (ha : u.activity = .run) :
    step u = if u.vm.canStep then .next (u.withVm u.vm.next) else .next u.endRun := by
  simp only [step, ha, engineStep_eq, VM.next]

theorem runs_of_runSteps {k : Nat} {u t : State} (ha : u.activity = .run) (h : runSteps k u = some t)
    (ht : t.activity = .idle) : ∃ w, VM.Runs u.vm w ∧ t = (u.withVm w).endRun := by
  induction k generalizing u with
  | zero => cases h; rw [ha] at ht; cases ht
  | succ k ih =>
    simp only [runSteps, step_run ha] at h
    by_cases hc : u.vm.canStep
    · simp only [if_pos hc] at h
      obtain ⟨w, hr, e⟩ := ih (u := u.withVm u.vm.next) ha h
      exact ⟨w, .step hc hr, e⟩
    · simp only [if_neg hc] at h
      cases k with
      | zero => cases h; exact ⟨u.vm, .stop hc, rfl⟩
      | succ k =>
        have : step u.endRun = .fault .noTransaction := rfl
        simp only [runSteps, this] at h
        cases h

theorem runSteps_of_runs {v w : VM} (h : VM.Runs v w) :
    ∀ {u : State}, u.activity = .run → u.vm = v → ∃ k, runSteps k u = some (u.withVm w).endRun := by
  induction h with
  | stop hc =>
    intro u ha hv
    subst hv
    exact ⟨1, by simp only [runSteps, step_run ha, if_neg hc]; rfl⟩
  | step hc _ ih =>
    intro u ha hv
    subst hv
    obtain ⟨k, hk⟩ := ih (u := u.withVm u.vm.next) ha rfl
    exact ⟨k + 1, by simp only [runSteps, step_run ha, if_pos hc]; exact hk⟩

/-- A completed run() of instance i, from its issue to its return. -/
theorem completes_run {i : Nat} {s b : State} (ha : s.activity = .idle) :
    Completes (.run i) s b ↔ ∃ u w, s.focus i = some u ∧ VM.Runs u.vm.resume w ∧
      b = (({ u with activity := .run, reply := none } : State).withVm w).endRun := by
  constructor
  · rintro ⟨t, k, h1, h2, h3⟩
    simp only [transact, ha] at h1
    obtain ⟨u, hu, rfl⟩ := State.onVm_next h1
    obtain ⟨w, hr, e⟩ := runs_of_runSteps (u := u.startRun) rfl h2 h3
    exact ⟨u, w, hu, hr, e⟩
  · rintro ⟨u, w, hu, hr, rfl⟩
    obtain ⟨k, hk⟩ := runSteps_of_runs hr (u := u.startRun) rfl rfl
    exact ⟨u.startRun, k, by simp only [transact, ha, State.onVm, hu], hk, rfl⟩

theorem completes_enqueueInput {i : Nat} {x : Word} {s b : State} (ha : s.activity = .idle) :
    Completes (.enqueueInput i x) s b ↔
      ∃ u, s.focus i = some u ∧ b = (u.withVm (u.vm.enqueueInput x)).answer .done := by
  constructor
  · rintro ⟨t, k, h1, h2, h3⟩
    simp only [transact, ha] at h1
    obtain ⟨u, hu, rfl⟩ := State.onVm_next h1
    have hui : u.activity = .idle := (State.focus_eq hu).2.2.2.2.2.1.trans ha
    refine ⟨u, hu, ?_⟩
    cases k with
    | zero => cases h2; rfl
    | succ k =>
      have hi : ((u.withVm (u.vm.enqueueInput x)).answer .done).activity = .idle := hui
      have : step ((u.withVm (u.vm.enqueueInput x)).answer .done) = .fault .noTransaction := by simp only [step, hi]
      simp only [runSteps, this] at h2
      cases h2
  · rintro ⟨u, hu, rfl⟩
    have hui : u.activity = .idle := (State.focus_eq hu).2.2.2.2.2.1.trans ha
    exact ⟨_, 0, by simp only [transact, ha, State.onVm, hu], rfl, hui⟩

theorem State.focus_of_index {u : State} {i : Nat} (h : u.index = i) : u.focus i = some u := by
  subst h
  exact State.focus_index u

end Sys2Proof.Machine
end

