-- ==== Sys2Proof/Tests/Slice0.lean ====
section
/-! SUPPORT. The model's own tests. Expected values come from the spec: the vectors of 95_test_vectors.md (named by their
id), the encoding rules R81, R82, R83, R86, R96 to R98, and hand calculation from a rule where none fits. The last part
has one witness for each statement with hypotheses: a state and operands that meet all of them together. -/

namespace Sys2Proof.Tests

open Sys2Proof Sys2Proof.Machine

/-- M of 95_test_vectors.md, WORD_MAX. -/
def maxWord : Word := 9223372036854775807

/-- m of 95_test_vectors.md, WORD_MIN. -/
def minWord : Word := 9223372036854775808

/-- An instance with this image loaded, at this pc and rb, with this input. -/
def vmOf (image : List Word) (pc rb : Word := 0) (inq : List Word := []) : VM :=
  { VM.load image pc rb with inq := inq }

/-- One instance, a run() of the host in progress. -/
def running (v : VM) : State :=
  { State.reset with slot := { vm := v, stage := [], partialOut := [] }, activity := .run }

/-- One instance, the host has the move. -/
def resting (v : VM) : State := { running v with activity := .idle }

/-- The state of an outcome that has one. -/
def stateOf : Host.Outcome State Fault Refusal → Option State
  | .next s => some s
  | .fault _ => none
  | .refused _ => none

/-- The instance after one step of a machine with one instance. -/
def afterStep (v : VM) : Option VM := (stateOf (step (running v))).map State.vm

/-- Up to n steps, as long as there is one. -/
def stepsOf : Nat → State → State
  | 0, s => s
  | n + 1, s =>
    match step s with
    | .next t => stepsOf n t
    | .fault _ => s
    | .refused _ => s

/-- The machine after a transaction and up to n steps. -/
def did (c : HostCmd) (n : Nat) (s : State) : State :=
  match transact c s with
  | .next t => stepsOf n t
  | .fault _ => s
  | .refused _ => s

/-! ### Well-formedness (R86): a write target in mode 1 is refused -/

theorem test_wellFormed_refuses_add_immediate_target :
    Instr.wellFormed (.add .position .position .immediate) = false := by decide

theorem test_wellFormed_refuses_mul_immediate_target :
    Instr.wellFormed (.mul .relative .immediate .immediate) = false := by decide

theorem test_wellFormed_refuses_inp_immediate_target :
    Instr.wellFormed (.inp .immediate) = false := by decide

theorem test_wellFormed_refuses_lt_immediate_target :
    Instr.wellFormed (.lt .immediate .immediate .immediate) = false := by decide

theorem test_wellFormed_refuses_eq_immediate_target :
    Instr.wellFormed (.eq .position .relative .immediate) = false := by decide

theorem test_wellFormed_accepts_immediate_reads :
    Instr.wellFormed (.add .immediate .immediate .relative) = true ∧ Instr.wellFormed (.out .immediate) = true ∧
      Instr.wellFormed (.jt .immediate .immediate) = true ∧ Instr.wellFormed .halt = true := by decide

/-! ### Decoding: words written out digit by digit from R81 and R96 (opcode in the two low digits, then the mode of
operand 1, 2, 3), as R97 and section 2 of 95_test_vectors.md read them -/

theorem test_decode_add :
    decode 1 = .ok (.add .position .position .position) ∧ decode 20101 = .ok (.add .immediate .position .relative) := by
  decide

theorem test_decode_mul :
    decode 1002 = .ok (.mul .position .immediate .position) ∧ decode 22202 = .ok (.mul .relative .relative .relative) := by
  decide

theorem test_decode_in :
    decode 3 = .ok (.inp .position) ∧ decode 203 = .ok (.inp .relative) ∧ decode 10003 = .ok (.inp .position) := by decide

theorem test_decode_out :
    decode 104 = .ok (.out .immediate) ∧ decode 204 = .ok (.out .relative) ∧ decode 1104 = .ok (.out .immediate) := by decide

theorem test_decode_jt :
    decode 105 = .ok (.jt .immediate .position) ∧ decode 30005 = .ok (.jt .position .position) := by decide

theorem test_decode_jf : decode 1006 = .ok (.jf .position .immediate) ∧ decode 2106 = .ok (.jf .immediate .relative) := by
  decide

theorem test_decode_lt : decode 20207 = .ok (.lt .relative .position .relative) := by decide

theorem test_decode_eq : decode 1208 = .ok (.eq .relative .immediate .position) := by decide

theorem test_decode_arb : decode 9 = .ok (.arb .position) ∧ decode 209 = .ok (.arb .relative) := by decide

theorem test_decode_halt : decode 99 = .ok .halt ∧ decode 12399 = .ok .halt := by decide

theorem test_decode_badOpcode :
    decode 0 = .error (.badOpcode 0) ∧ decode 98 = .error (.badOpcode 98) ∧ decode 31100 = .error (.badOpcode 31100) ∧
      decode (-1) = .error (.badOpcode (-1)) ∧ decode minWord = .error (.badOpcode minWord) := by decide

theorem test_decode_invalidMode :
    decode 1301 = .error (.invalidParameterMode 1 3) ∧ decode 11001 = .error (.invalidParameterMode 3 1) ∧
      decode 103 = .error (.invalidParameterMode 1 1) ∧ decode 3005 = .error (.invalidParameterMode 2 3) ∧
      decode maxWord = .error (.invalidParameterMode 1 8) := by decide

/-- The canonical words of R94 and R97. -/
theorem test_encode :
    encode (.mul .position .immediate .position) = 1002 ∧ encode (.add .immediate .immediate .relative) = 21101 ∧
      encode (.jf .immediate .relative) = 2106 ∧ encode (.inp .relative) = 203 ∧ encode .halt = 99 ∧
      assemble (.arb .immediate) [10] = [109, 10] := by decide

/-- A table row of 64 bits and of 256 bits: only the first word decides. -/
theorem test_decodeTableWord :
    decodeTableWord 64 99 = some .halt ∧ decodeTableWord 256 (1101 + 2 ^ 64 * 7) = some (.add .immediate .immediate .position) ∧
      decodeTableWord 64 100 = none := by decide

/-- The image text of R93. -/
theorem test_parseImage :
    parseImage "1,-2,3\n".toList = some [1, -2, 3] ∧ parseImage "".toList = none ∧ parseImage "1,,2".toList = none ∧
      parseImage "+1".toList = none ∧ parseImage "9223372036854775808".toList = none := by decide

/-! ### One step of each instruction (section 3 of 95_test_vectors.md) -/

/-- A3 -/
theorem test_add_relative_target :
    (afterStep (vmOf [21101, 3, 4, 5] 0 10)).map (fun v => (v.mem.read 15, v.pc, v.hwm)) = some (7, 4, 15) := by decide

/-- A5 -/
theorem test_add_wraps :
    (afterStep (vmOf [1101, maxWord, 1, 5, 99, 0])).map (fun v => (v.mem.read 5, v.pc, v.hwm)) = some (minWord, 4, 5) := by decide

/-- M9 -/
theorem test_mul_relative_target :
    (afterStep (vmOf [22202, 0, 1, 2, -3, 5] 0 4)).map (fun v => (v.mem.read 6, v.pc, v.hwm)) = some (-15, 4, 6) := by decide

/-- M5 -/
theorem test_mul_wraps :
    (afterStep (vmOf [1102, 3037000500, 3037000500, 5, 99, 0])).map (fun v => v.mem.read 5) = some (-9223372036709301616) := by decide

/-- L4 -/
theorem test_lt_signed :
    (afterStep (vmOf [1107, minWord, maxWord, 5, 99, 7])).map (fun v => (v.mem.read 5, v.pc)) = some (1, 4) := by decide

/-- L3 -/
theorem test_lt_equal_is_not_less :
    (afterStep (vmOf [1107, 3, 3, 5, 99, 7])).map (fun v => v.mem.read 5) = some 0 := by decide

/-- E4 -/
theorem test_eq_unwritten_cell :
    (afterStep (vmOf [1008, 100, 16, 101])).map (fun v => (v.mem.read 101, v.pc, v.hwm)) = some (0, 4, 101) := by decide

/-- E6 -/
theorem test_eq_relative_operand :
    (afterStep (vmOf [1208, -1, 99, 0, 99] 0 5)).map (fun v => (v.mem.read 0, v.pc)) = some (1, 4) := by decide

/-- I1 -/
theorem test_in_takes_the_head :
    (afterStep (vmOf [3, 3, 99, 0] 0 0 [5, 6])).map (fun v => (v.mem.read 3, v.pc, v.inq)) = some (5, 2, [6]) := by decide

/-- I2 -/
theorem test_in_suspends :
    (afterStep (vmOf [3, 3, 99, 0])).map (fun v => (v.pc, v.runState, v.hwm)) = some (0, .waitingForInput, 3) := by decide

/-- O3 -/
theorem test_out_relative :
    (afterStep (vmOf [204, -1, 99, 0, 55] 0 5)).map (fun v => (v.outq, v.pc, v.hwm)) = some ([55], 2, 4) := by decide

/-- O4, from an empty output FIFO -/
theorem test_out_reads_above_the_image :
    (afterStep (vmOf [4, 50, 99])).map (fun v => (v.outq, v.hwm)) = some ([0], 50) := by decide

/-- T4 -/
theorem test_jt_negative_target :
    (afterStep (vmOf [1105, -1, -5, 99])).map (fun v => (v.pc, v.fault)) = some (-5, none) := by decide

/-- T6 -/
theorem test_jt_not_taken_still_resolves :
    (afterStep (vmOf [105, 0, -1, 99])).map (fun v => (v.pc, v.fault)) = some (0, some { cause := .addressError (-1), pc := 0, word := some 105 }) := by decide

/-- F3 -/
theorem test_jf_position :
    (afterStep (vmOf [6, 4, 5, 99, 0, 2])).map (fun v => (v.pc, v.hwm)) = some (2, 5) := by decide

/-- F2 -/
theorem test_jf_not_taken :
    (afterStep (vmOf [1106, 3, 7, 99])).map (fun v => v.pc) = some 3 := by decide

/-- R5 -/
theorem test_arb_wraps :
    (afterStep (vmOf [109, 1, 99] 0 maxWord)).map (fun v => (v.rb, v.pc)) = some (minWord, 2) := by decide

/-- R8 -/
theorem test_arb_relative_uses_the_old_base :
    (afterStep (vmOf [209, -5, 99] 0 2)).map (fun v => (v.rb, v.pc, v.fault.map (fun r => r.cause))) = some (2, 0, some (.addressError (-3))) := by decide

/-- H3 -/
theorem test_halt_leaves_pc :
    (afterStep (vmOf [12399, 5])).map (fun v => (v.runState, v.pc, v.hwm)) = some (.halted, 0, 1) := by decide

/-- H4 -/
theorem test_halt_keeps_the_input :
    (afterStep (vmOf [99] 0 0 [3])).map (fun v => (v.runState, v.inq)) = some (.halted, [3]) := by decide

/-! ### Faults, the top of the address space, the host and the network -/

/-- X3: a bad mode digit comes before a bad address. -/
theorem test_fault_mode_before_address :
    (afterStep (vmOf [10001, -1, 0, 0])).map VM.fault =
      some (some { cause := .invalidParameterMode 3 1, pc := 0, word := some 10001 }) := by decide

/-- X9: a fetch at a negative pc. -/
theorem test_fault_fetch :
    (afterStep { vmOf [99] with pc := -1 }).map VM.fault =
      some (some { cause := .addressError (-1), pc := -1, word := none }) := by decide

/-- Q2: the operand word would be beyond ADDR_MAX. -/
theorem test_fault_operand_beyond_memory :
    (afterStep { vmOf [] maxWord with mem := [(9223372036854775807, 109)], hwm := 9223372036854775807 }).map VM.fault =
      some (some { cause := .addressError 9223372036854775808, pc := maxWord, word := some 109 }) := by decide

/-- Q1: the sequential successor of the last address wraps. -/
theorem test_pc_wraps :
    (afterStep
      { vmOf [] (maxWord - 1) with
        mem := [(9223372036854775806, 109), (9223372036854775807, 5)], hwm := 9223372036854775807 }).map
      (fun v => (v.pc, v.rb)) = some (minWord, 5) := by decide

/-- HT7: run() at power-on. -/
theorem test_run_at_power_on : (did (.run 0) 9 State.reset).reply = some (.ran .ranOff []) := by decide

/-- HT1: a latched fault is cleared by load alone. -/
theorem test_fault_is_sticky :
    let s := did (.run 0) 9 (did (.load 0 [104, 7, 0, 99] 0 0) 0 State.reset)
    let t := did (.run 0) 9 (did (.pokeMemory 0 2 99) 0 s)
    s.reply = some (.ran (.fault 1) [7]) ∧ t.reply = some (.ran (.fault 1) []) ∧ t.vm.mem.read 2 = 99 ∧
      (did (.run 0) 9 (did (.load 0 [104, 7, 99] 0 0) 0 t)).reply = some (.ran .halted [7]) := by decide

/-- HT3: peek_memory leaves hwm alone. -/
theorem test_peek :
    let s := did (.peekMemory 0 100) 0 (did (.load 0 [1, 0, 0, 0, 99] 0 0) 0 State.reset)
    s.reply = some (.word 0) ∧ s.vm.hwm = 4 := by decide

/-- HT5: poke_memory raises hwm. -/
theorem test_poke_raises_hwm :
    (did (.pokeMemory 0 6 0) 0 (did (.load 0 [104, 1] 0 0) 0 State.reset)).vm.hwm = 6 := by decide

/-- R228 on a one-instance network whose program reads its identifier and halts: round 1 sends nothing and is idle. -/
theorem test_runNetwork_idle :
    (did .runNetwork 20 (did (.netInit 1 [3, 10, 99]) 0 State.reset)).reply =
      some (.round { sent := 0, turns := 1, idle := true }) := by decide

/-- NW2's packet to itself in small: OUT #0, OUT #5, OUT #6 sends (0, 5, 6), delivered at the boundary. -/
theorem test_packet_is_delivered :
    let s := did .round 30 (did (.netInit 1 [104, 0, 104, 5, 104, 6, 99]) 0 State.reset)
    s.reply = some (.round { sent := 1, turns := 1, idle := false }) ∧ s.vm.inq = [0, 5, 6] ∧ s.slot.stage = [] := by decide

/-- The word placed where step fetches runs as the first instruction after reset. -/
theorem test_withFetchWord :
    (stateOf (step (State.reset.withFetchWord 64 99))).map (fun s => s.vm.runState) = some .halted := by decide

/-! ### Witnesses: the hypotheses of each statement, met together -/

/-- ADD #3, #4, [5]. -/
def addVm : VM := vmOf [1101, 3, 4, 5, 99, 0]

/-- IN [3]. -/
def inVm : VM := vmOf [3, 3, 99, 0]

/-- The record that a fault of the word 0 at address 0 latches. -/
def record : FaultRecord := { cause := .badOpcode 0, pc := 0, word := some 0 }

/-- Two instances, the one at 0 in focus: it has sent one packet to 1 and one Word of the next. -/
def twoPlaces (v : VM) (a : Activity) : State :=
  { State.reset with
    slot := { vm := v, stage := [], partialOut := [1, 7] }
    higher := [{ vm := vmOf [99], stage := [], partialOut := [] }]
    activity := a }

/-- Place j of two states, compared. -/
def compared (s t : State) (j : Nat) (p : VM → VM → Prop) : Prop :=
  ∃ q q', s.slots[j]? = some q ∧ t.slots[j]? = some q' ∧ p q.vm q'.vm

def ctl : RoundCtl := { sent := 0, turns := 1, loop := false }

theorem test_witness_DecodeInvertsEncode :
    Instr.wellFormed (.lt .relative .immediate .relative) = true := by decide

/-- Words that decode, with digits above the declared ones (R89) and without. -/
theorem test_witness_DecodeReadsExactlyTheDeclaredDigits :
    decode 21101 = .ok (.add .immediate .immediate .relative) ∧ decode 9223372036854720001 = .ok (.add .position .position .relative) ∧
      decode 30005 = .ok (.jt .position .position) := by decide

theorem test_witness_BadOpcodeExactlyOutsideTheTable :
    decode (-1) = .error (.badOpcode (-1)) ∧ decode 98 = .error (.badOpcode 98) ∧ decode 10 = .error (.badOpcode 10) := by decide

/-- Digit 3 on operand 1, digit 1 on a write target at operands 1 and 3, digit 9. -/
theorem test_witness_InvalidModeReportsTheLowestOperand :
    decode 3301 = .error (.invalidParameterMode 1 3) ∧ decode 10001 = .error (.invalidParameterMode 3 1) ∧
      decode 103 = .error (.invalidParameterMode 1 1) ∧ decode 904 = .error (.invalidParameterMode 1 9) := by decide

/-- Each clause at the edge of its range: operand word at ADDR_MAX + 1, at 0 and at ADDR_MAX, p = 0, p = -1, rb + p = 0, rb + p =
ADDR_MAX, rb + p = ADDR_MAX + 1, rb + p = -1. -/
theorem test_witness_ReadOperandResolution :
    (vmOf [] maxWord).resolveRead 1 .position = .error (.raise (.addressError 9223372036854775808)) ∧
      (vmOf [7, 0]).resolveRead 1 .position = .ok ⟨7, 1⟩ ∧ (vmOf [0, 1] (-1)).resolveRead 1 .immediate = .ok ⟨0, 0⟩ ∧
      (vmOf [] (maxWord - 1)).resolveRead 1 .immediate = .ok ⟨0, 9223372036854775807⟩ ∧
      (vmOf [7, -1]).resolveRead 1 .position = .error (.raise (.addressError (-1))) ∧
      (vmOf [7, -5] 0 5).resolveRead 1 .relative = .ok ⟨7, 1⟩ ∧
      (vmOf [7, 0] 0 maxWord).resolveRead 1 .relative = .ok ⟨0, 9223372036854775807⟩ ∧
      (vmOf [7, 1] 0 maxWord).resolveRead 1 .relative = .error (.raise (.addressError 9223372036854775808)) ∧
      (vmOf [7, -6] 0 5).resolveRead 1 .relative = .error (.raise (.addressError (-1))) := by
  refine ⟨?_, ?_, ?_, ?_, ?_, ?_, ?_, ?_, ?_⟩ <;> rfl

theorem test_witness_WriteTargetResolution :
    (vmOf [] maxWord).resolveWrite 1 .relative = .error (.raise (.addressError 9223372036854775808)) ∧
      (vmOf [7, 0]).resolveWrite 1 .position = .ok ⟨0, 1⟩ ∧
      (vmOf [7, -1]).resolveWrite 1 .position = .error (.raise (.addressError (-1))) ∧
      (vmOf [7, 0] 0 maxWord).resolveWrite 1 .relative = .ok ⟨9223372036854775807, 1⟩ ∧
      (vmOf [7, 1] 0 maxWord).resolveWrite 1 .relative = .error (.raise (.addressError 9223372036854775808)) ∧
      (vmOf [7, -6] 0 5).resolveWrite 1 .relative = .error (.raise (.addressError (-1))) := by
  refine ⟨?_, ?_, ?_, ?_, ?_, ?_⟩ <;> rfl

theorem test_witness_PositionEqualsRelativeAtBaseZero : (vmOf [7, 0]).rb = 0 := by decide

/-- V4: rb = 10, k = 5. -/
theorem test_witness_RelativeStoreLandsAtBasePlusOffset :
    ∃ t, Instr.writeMode (.add .immediate .immediate .relative) = some .relative ∧
      exec (.add .immediate .immediate .relative) (running (vmOf [21101, 3, 4, 5] 0 10)) = .next t ∧
      (vmOf [21101, 3, 4, 5] 0 10).mem.read 3 = 5 ∧ t.vm.mem.read 15 = 7 := ⟨_, rfl, rfl, by decide, by decide⟩

theorem test_witness_AddMulStoreTheWrappedResult :
    ∃ x y t, addVm.resolveRead 1 .immediate = .ok x ∧ addVm.resolveRead 2 .immediate = .ok y ∧
      addVm.resolveWrite 3 .position = .ok t := ⟨_, _, _, rfl, rfl, rfl⟩

theorem test_witness_LtEqStoreOneOrZero :
    ∃ x y t, (vmOf [20207, 0, 6, 1, 99, 0, 9] 0 5).resolveRead 1 .relative = .ok x ∧
      (vmOf [20207, 0, 6, 1, 99, 0, 9] 0 5).resolveRead 2 .position = .ok y ∧
      (vmOf [20207, 0, 6, 1, 99, 0, 9] 0 5).resolveWrite 3 .relative = .ok t := ⟨_, _, _, rfl, rfl, rfl⟩

theorem test_witness_InStoresTheHeadOfTheInput :
    ∃ t, (vmOf [3, 3, 99, 0] 0 0 [5, 6]).resolveWrite 1 .position = .ok t ∧
      (vmOf [3, 3, 99, 0] 0 0 [5, 6]).inq = [5, 6] := ⟨_, rfl, rfl⟩

theorem test_witness_InSuspendsOnEmptyInput :
    ∃ r, (running inVm).activity = .run ∧ (running inVm).vm.canStep ∧ (running inVm).vm.resolveWrite 1 .position = .ok r ∧
      (running inVm).vm.inq = [] := ⟨_, rfl, by decide, rfl, rfl⟩

theorem test_witness_OutAppendsTheValue : ∃ x, (vmOf [4, 3, 99, 77]).resolveRead 1 .position = .ok x := ⟨_, rfl⟩

/-- JT and JF, each taken and not taken, with operands in every mode among them. -/
theorem test_witness_JumpsTakeTheSecondOperand :
    let meets : VM → Mode → Mode → Word → Prop := fun v c m x =>
      ∃ r y, v.resolveRead 1 c = .ok r ∧ r.value = x ∧ v.resolveRead 2 m = .ok y
    meets (vmOf [1105, 1, 7, 99]) .immediate .immediate 1 ∧ meets (vmOf [1005, 3, 7, 0]) .position .immediate 0 ∧
      meets (vmOf [2106, 0, 1, 99] 0 2) .immediate .relative 0 ∧ meets (vmOf [206, 1, 0, 99] 0 2) .relative .position 99 :=
  ⟨⟨_, _, rfl, rfl, rfl⟩, ⟨_, _, rfl, rfl, rfl⟩, ⟨_, _, rfl, rfl, rfl⟩, ⟨_, _, rfl, rfl, rfl⟩⟩

theorem test_witness_ArbAddsToTheBase : ∃ x, (vmOf [109, 10, 99]).resolveRead 1 .immediate = .ok x := ⟨_, rfl⟩

theorem test_witness_HaltStopsInPlace :
    (running (vmOf [99])).activity = .run ∧ (running (vmOf [99])).vm.fault = none := by decide

/-- HALT, a sequential instruction, a jump not taken, a taken jump (F2, T1). -/
theorem test_witness_SequentialSuccessor :
    let done : State → Prop := fun t => t.vm.fault = none ∧ t.vm.runState ≠ .waitingForInput
    (∃ t, exec .halt (running (vmOf [99])) = .next t ∧ done t ∧ t.vm.pc = 0) ∧
      (∃ t, exec (.add .immediate .immediate .position) (running addVm) = .next t ∧ done t ∧ t.vm.pc = 4) ∧
      (∃ t, exec (.jf .immediate .immediate) (running (vmOf [1106, 3, 7, 99])) = .next t ∧ done t ∧ t.vm.pc = 3) ∧
      ∃ t, exec (.jt .immediate .immediate) (running (vmOf [1105, 1, 7, 99])) = .next t ∧ done t ∧ t.vm.pc = 7 :=
  ⟨⟨_, rfl, by decide, by decide⟩, ⟨_, rfl, by decide, by decide⟩, ⟨_, rfl, by decide, by decide⟩,
    ⟨_, rfl, by decide, by decide⟩⟩

/-- A completed store, an address fault (no target), a suspend. -/
theorem test_witness_StoringInstructionsFrame :
    (∃ t r, exec (.add .immediate .immediate .position) (running addVm) = .next t ∧ addVm.resolveWrite 3 .position = .ok r) ∧
      (∃ t, exec (.inp .position) (running (vmOf [3, -1, 99])) = .next t ∧ t.vm.fault ≠ none ∧
        (vmOf [3, -1, 99]).resolveWrite 1 .position = .error (.raise (.addressError (-1)))) ∧
      ∃ t, exec (.inp .position) (running inVm) = .next t ∧ t.vm.runState ≠ inVm.runState :=
  ⟨⟨_, _, rfl, rfl⟩, ⟨_, rfl, by decide, rfl⟩, ⟨_, rfl, by decide⟩⟩

theorem test_witness_NonStoringInstructionsFrame :
    Instr.writeMode (.out .immediate) = none ∧ ∃ t, exec (.out .immediate) (running (vmOf [104, 5])) = .next t :=
  ⟨rfl, _, rfl⟩

theorem test_witness_OnlyArbAndLoadChangeTheBase :
    (∃ t, step (running (vmOf [109, 10, 99])) = .next t ∧
        compared (running (vmOf [109, 10, 99])) t 0 (fun v w => w.rb ≠ v.rb)) ∧
      ∃ t, transact (.load 0 [99] 0 9) (resting addVm) = .next t ∧ compared (resting addVm) t 0 (fun v w => w.rb ≠ v.rb) :=
  ⟨⟨_, rfl, _, _, rfl, rfl, by decide⟩, ⟨_, rfl, _, _, rfl, rfl, by decide⟩⟩

/-- A starved IN, HALT, the start of a turn, run(), load. -/
theorem test_witness_RunStateTransitions :
    let p : VM → VM → Prop := fun v w => w.runState ≠ v.runState
    (∃ t, step (running inVm) = .next t ∧ compared (running inVm) t 0 p) ∧
      (∃ t, step (running (vmOf [99])) = .next t ∧ compared (running (vmOf [99])) t 0 p) ∧
      (∃ t, step (twoPlaces { inVm with runState := .waitingForInput } (.turn ctl)) = .next t ∧
        compared (twoPlaces { inVm with runState := .waitingForInput } (.turn ctl)) t 0 p) ∧
      (∃ t, transact (.run 0) (resting { inVm with runState := .waitingForInput }) = .next t ∧
        compared (resting { inVm with runState := .waitingForInput }) t 0 p) ∧
      ∃ t, transact (.load 0 [99] 0 0) (resting { inVm with runState := .halted }) = .next t ∧
        compared (resting { inVm with runState := .halted }) t 0 p :=
  ⟨⟨_, rfl, _, _, rfl, rfl, by decide⟩, ⟨_, rfl, _, _, rfl, rfl, by decide⟩, ⟨_, rfl, _, _, rfl, rfl, by decide⟩,
    ⟨_, rfl, _, _, rfl, rfl, by decide⟩, ⟨_, rfl, _, _, rfl, rfl, by decide⟩⟩

theorem test_witness_HighWaterMarkNeverFalls :
    (∃ t, step (running (vmOf [4, 50, 99])) = .next t ∧
        compared (running (vmOf [4, 50, 99])) t 0 (fun _ w => w.hwm = 50)) ∧
      ∃ t, transact (.load 0 [] 0 0) (resting addVm) = .next t ∧ compared (resting addVm) t 0 (fun v w => w.hwm < v.hwm) :=
  ⟨⟨_, rfl, _, _, rfl, rfl, by decide⟩, ⟨_, rfl, _, _, rfl, rfl, by decide⟩⟩

theorem addVm_engineHasStep : (running addVm).engineHasStep := ⟨.inl rfl, by decide⟩

theorem test_witness_StepRunsTheDecodedInstruction :
    (running addVm).engineHasStep ∧ 0 ≤ (running addVm).vm.pc.toInt ∧
      decode ((running addVm).vm.mem.read 0) = .ok (.add .immediate .immediate .position) :=
  ⟨addVm_engineHasStep, by decide, by decide⟩

/-- A negative pc; a word at pc = 0 that is no instruction. -/
theorem test_witness_FetchAndDecodeFaultsComeFirst :
    ((running { addVm with pc := -1 }).engineHasStep ∧ (running { addVm with pc := -1 }).vm.pc.toInt < 0) ∧
      (running (vmOf [31100])).engineHasStep ∧ decode 31100 = .error (.badOpcode 31100) :=
  ⟨⟨⟨.inl rfl, by decide⟩, by decide⟩, ⟨.inl rfl, by decide⟩, by decide⟩

/-- X5: all three operands are bad and the first is reported; and three good ones. -/
theorem test_witness_FirstBadOperandIsTheFault :
    (vmOf [1, -1, -2, -3]).checkOperands (.add .position .position .position) 1 [.position, .position, .position] =
        .error (.raise (.addressError (-1))) ∧
      addVm.checkOperands (.add .immediate .immediate .position) 1 [.immediate, .immediate, .position] = .ok () :=
  ⟨rfl, rfl⟩

theorem test_witness_FaultsArePrecise :
    ∃ t r, (running (vmOf [3, -1, 99])).engineHasStep ∧ step (running (vmOf [3, -1, 99])) = .next t ∧
      t.vm.fault = some r := ⟨_, _, ⟨.inl rfl, by decide⟩, rfl, rfl⟩

theorem test_witness_StepOutcomes : (running addVm).engineHasStep := addVm_engineHasStep

theorem test_witness_OnlyLoadClearsAFault :
    (∃ t, step (running { addVm with fault := some record }) = .next t ∧
        compared (running { addVm with fault := some record }) t 0 (fun v _ => v.fault ≠ none)) ∧
      ∃ t, transact (.load 0 [99] 0 0) (resting { addVm with fault := some record }) = .next t ∧
        compared (resting { addVm with fault := some record }) t 0 (fun v w => v.fault ≠ none ∧ w.fault ≠ v.fault) :=
  ⟨⟨_, rfl, _, _, rfl, rfl, by decide⟩, ⟨_, rfl, _, _, rfl, rfl, by decide⟩⟩

/-- A9 in small: the store to the next instruction's word. -/
theorem test_witness_StoreIsSeenByTheNextFetch :
    ∃ x y r t, (vmOf [1001, 4, 1, 4, 98]).mem.wf = true ∧
      (vmOf [1001, 4, 1, 4, 98]).resolveRead 1 .position = .ok x ∧
      (vmOf [1001, 4, 1, 4, 98]).resolveRead 2 .immediate = .ok y ∧
      (vmOf [1001, 4, 1, 4, 98]).resolveWrite 3 .position = .ok r ∧
      exec (.add .position .immediate .position) (running (vmOf [1001, 4, 1, 4, 98])) = .next t ∧
      (4 : Word).toInt = r.target := ⟨_, _, _, _, by decide, rfl, rfl, rfl, rfl, by decide⟩

/-- A fault, Halted, WaitingForInput, run-off: each at its test of R189. -/
theorem test_witness_RunReturnsWhenTheGuardFails :
    ¬(running { addVm with fault := some record }).vm.canStep ∧
      ¬(running { addVm with runState := .halted }).vm.canStep ∧
      ¬(running { addVm with runState := .waitingForInput }).vm.canStep ∧ ¬(running { addVm with pc := 6 }).vm.canStep := by
  decide

/-- Halted and waiting; and, with a fault latched, a run() in progress, a turn, and the host's move. -/
theorem test_witness_NoStepWithoutRunning :
    (running { addVm with runState := .halted }).vm.runState ≠ .running ∧
      (resting { addVm with runState := .waitingForInput }).vm.runState ≠ .running ∧
      ((running { addVm with fault := some record }).vm.fault ≠ none ∧
        (running { addVm with fault := some record }).activity = .run) ∧
      ((twoPlaces { addVm with fault := some record } (.turnRun ctl)).vm.fault ≠ none ∧
        (twoPlaces { addVm with fault := some record } (.turnRun ctl)).activity = .turnRun ctl) ∧
      (resting { addVm with fault := some record }).vm.fault ≠ none ∧
      (resting { addVm with fault := some record }).activity = .idle := by decide

theorem test_witness_LoadInitialisesEverything :
    (resting addVm).activity = .idle ∧ (resting addVm).slots[0]? = some (resting addVm).slot ∧
      (([1, -9223372036854775808, 9223372036854775807] : List Int).length : Int) ≤ Config.addrMax + 1 ∧
      ∀ v ∈ ([1, -9223372036854775808, 9223372036854775807] : List Int), Config.wordMin ≤ v ∧ v ≤ Config.wordMax := by decide

theorem test_witness_EnqueueAppendsOnly :
    (resting addVm).activity = .idle ∧ (resting addVm).slots[0]? = some (resting addVm).slot := by decide

/-- Addresses at both edges, and one beyond each. -/
theorem test_witness_PeekReadsAndChangesNothing :
    (resting addVm).activity = .idle ∧ (resting addVm).slots[0]? = some (resting addVm).slot ∧ legalAddress 0 ∧
      legalAddress 9223372036854775807 ∧ ¬legalAddress (-1) ∧ ¬legalAddress 9223372036854775808 ∧
      addVm.mem.all (fun c => c.1 ≠ 77) = true := by decide

theorem test_witness_PokeWritesAndRaisesHwm :
    (resting addVm).activity = .idle ∧ (resting addVm).slots[0]? = some (resting addVm).slot ∧ addVm.mem.wf = true := by
  decide

theorem test_witness_RunOfAStoppedInstanceExecutesNothing :
    (resting { addVm with runState := .halted }).activity = .idle ∧
      (resting { addVm with runState := .halted }).vm.runState = .halted := by decide

/-- Both clauses: a waiting instance without a fault, a faulted one, and instance 1 of two. -/
theorem test_witness_RunBeginsOnItsInstance :
    (resting { inVm with runState := .waitingForInput }).activity = .idle ∧
      (resting { inVm with runState := .waitingForInput }).slots[0]? =
        some (resting { inVm with runState := .waitingForInput }).slot ∧
      (resting { addVm with fault := some record }).slots[0]? = some (resting { addVm with fault := some record }).slot ∧
      (twoPlaces addVm .idle).activity = .idle ∧
      (twoPlaces addVm .idle).slots[1]? = some { vm := vmOf [99], stage := [], partialOut := [] } := by decide

/-- Values one beyond each end of the range, and an image of more than ADDR_MAX + 1 integers. -/
theorem test_witness_BadImageChangesNothing :
    (resting addVm).activity = .idle ∧ (resting addVm).slots[0]? = some (resting addVm).slot ∧
      (∃ v ∈ ([1, 9223372036854775808] : List Int), v < Config.wordMin ∨ Config.wordMax < v) ∧
      (∃ v ∈ ([-9223372036854775809] : List Int), v < Config.wordMin ∨ Config.wordMax < v) ∧
      Config.addrMax + 1 < ((List.replicate 9223372036854775809 (0 : Int)).length : Int) := by
  refine ⟨by decide, by decide, by decide, by decide, ?_⟩
  rw [List.length_replicate]
  decide

/-- Two instances with the one at 1 in focus, and the network's latch clear. -/
theorem test_witness_RoundBeginsAtInstanceZero :
    ∃ s, (twoPlaces addVm .idle).focus 1 = some s ∧ s.activity = .idle ∧ s.netFault = none ∧ s.index = 1 :=
  ⟨_, rfl, by decide, by decide, by decide⟩

theorem test_witness_TakeEgressHandsOverTheQueue :
    ({ resting addVm with egress := [{ src := 0, dest := 5, x := 1, y := 2 }] } : State).activity = .idle := by decide

theorem test_witness_NoTransactionDuringATransaction : (running addVm).activity ≠ .idle := by decide

theorem test_witness_AcceptedImageHoldsWords : ∃ image, parseImage "1,-2,3".toList = some image := ⟨_, rfl⟩

theorem test_witness_NetInitLoadsEveryInstance :
    (resting addVm).activity = .idle ∧ 1 ≤ 2 ∧ ((2 : Nat) : Int) ≤ Config.addrMax + 1 ∧
      (([99] : List Int).length : Int) ≤ Config.addrMax + 1 ∧
      ∀ v ∈ ([99] : List Int), Config.wordMin ≤ v ∧ v ≤ Config.wordMax := by decide

/-- A halted instance, one with input, one without; the last place of two. -/
theorem test_witness_TurnBeginsWithTheSentinelTest :
    (twoPlaces { addVm with runState := .halted } (.turn ctl)).activity = .turn ctl ∧
      (twoPlaces addVm (.turn ctl)).vm.runState ≠ .halted ∧ (twoPlaces addVm (.turn ctl)).vm.inq = [] ∧
      (twoPlaces addVm (.turn ctl)).index + 1 < (twoPlaces addVm (.turn ctl)).size ∧
      (running addVm).index + 1 = (running addVm).size := by decide

/-- Two kept Words and four outputs: (1, 7, 8), then (5, 1, 2), whose destination is no instance. -/
theorem test_witness_TurnEndRoutesEveryPacket :
    (twoPlaces { inVm with outq := [8, 5, 1, 2], runState := .waitingForInput } (.turnRun ctl)).activity = .turnRun ctl ∧
      ¬(twoPlaces { inVm with outq := [8, 5, 1, 2], runState := .waitingForInput } (.turnRun ctl)).vm.canStep ∧
      (twoPlaces { inVm with outq := [8, 5, 1, 2], runState := .waitingForInput } (.turnRun ctl)).vm.fault = none ∧
      (stateOf (step (twoPlaces { inVm with outq := [8, 5, 1, 2], runState := .waitingForInput } (.turnRun ctl)))).map
          (fun t => (t.slots.map Slot.stage, t.egress)) =
        some ([[], [7, 8]], [{ src := 0, dest := 5, x := 1, y := 2 }]) := by decide

theorem test_witness_BoundaryDeliversAndTestsIdle :
    (twoPlaces addVm (.deliver ctl)).activity = .deliver ctl ∧ (twoPlaces addVm (.deliver ctl)).netFault = none ∧
      ctl.loop = false := by decide

theorem test_witness_FaultInATurnStopsTheNetwork :
    ((twoPlaces { addVm with fault := some record } (.turnRun ctl)).activity = .turnRun ctl ∧
        (twoPlaces { addVm with fault := some record } (.turnRun ctl)).vm.fault = some record) ∧
      ({ resting addVm with netFault := some (0, record) } : State).activity = .idle ∧
      ∃ t, transact (.netInit 1 [99]) { resting addVm with netFault := some (0, record) } = .next t ∧ t.netFault = none :=
  ⟨by decide, rfl, _, rfl, rfl⟩

theorem test_witness_EngineSeesOnlyItsOwnInstance :
    ∃ t t', (running addVm).engineHasStep ∧ (twoPlaces addVm .run).engineHasStep ∧
      (running addVm).vm = (twoPlaces addVm .run).vm ∧ step (running addVm) = .next t ∧
      step (twoPlaces addVm .run) = .next t' :=
  ⟨_, _, addVm_engineHasStep, ⟨.inl rfl, by decide⟩, rfl, rfl, rfl⟩

/-- IN removes the head; the sentinel comes to an empty FIFO. -/
theorem test_witness_PacketsArriveOnlyAtTheBoundary :
    (∃ t, step (running (vmOf [3, 3, 99, 0] 0 0 [5, 6])) = .next t ∧
        compared (running (vmOf [3, 3, 99, 0] 0 0 [5, 6])) t 0 (fun _ w => w.inq = [6])) ∧
      ∃ t, step (twoPlaces addVm (.turn ctl)) = .next t ∧
        compared (twoPlaces addVm (.turn ctl)) t 0 (fun _ w => w.inq = [Config.sentinel]) :=
  ⟨⟨_, rfl, _, _, rfl, rfl, rfl⟩, ⟨_, rfl, _, _, rfl, rfl, rfl⟩⟩

theorem loaded_inv {image : List Word} (n : Nat) (h : image.length = n) (hn : n < 1000)
    (hm : ∀ a : Nat, (Memory.ofImage 0 image).read a ≠ 0 → a < n) (hw : (Memory.ofImage 0 image).wf = true) :
    (vmOf image).Inv := by
  have hx : Config.addrMax = 9223372036854775807 := rfl
  refine ⟨hw, ?_, ?_, ?_, fun h => absurd rfl h, fun h => by cases h⟩
  · simp only [vmOf, VM.load]; omega
  · simp only [vmOf, VM.load]; omega
  · intro a ha
    have := hm a ha
    simp only [vmOf, VM.load]; omega

theorem halt_inv : (vmOf [99]).Inv := by
  refine loaded_inv 1 rfl (by omega) ?_ (by decide)
  intro a ha
  by_contra hn
  refine ha ?_
  show Memory.read [(0, 99)] a = 0
  simp only [Memory.read]
  rw [if_neg (by omega)]
  rfl

theorem resting_halt_inv (a : Activity) (ha : a = .idle ∨ a = .run) : ({ running (vmOf [99]) with activity := a } : State).Inv := by
  refine ⟨?_, ?_, ?_, fun _ => ha⟩
  · intro q hq
    simp [State.slots, running, State.reset] at hq
    subst hq
    exact halt_inv
  · intro q hq
    simp [State.slots, running, State.reset] at hq
    subst hq
    exact Nat.zero_le 2
  · intro _ _ q hq
    simp [State.slots, running, State.reset] at hq
    subst hq
    rfl

theorem test_witness_InvariantKeptByEveryStep : ∃ t, (running (vmOf [99])).Inv ∧ step (running (vmOf [99])) = .next t :=
  ⟨_, resting_halt_inv .run (.inr rfl), rfl⟩

theorem test_witness_InvariantKeptByEveryTransaction :
    ∃ t, (resting (vmOf [99])).Inv ∧ transact (.pokeMemory 0 7 3) (resting (vmOf [99])) = .next t :=
  ⟨_, resting_halt_inv .idle (.inl rfl), rfl⟩

/-- V6 in small: IN [7], IN [8], OUT [8], HALT with one Word before each run(). -/
theorem test_witness_SplittingTheInputChangesNothing :
    ∃ b b', (resting (vmOf [3, 7, 3, 8, 4, 8, 99])).activity = .idle ∧
      CompletesAll (feedAndRun 0 [20]) (resting (vmOf [3, 7, 3, 8, 4, 8, 99])) b ∧
      CompletesAll (feedAndRun 0 [22]) b b' ∧ b.reply = some (.ran .waitingForInput []) ∧
      b'.reply = some (.ran .halted [22]) :=
  ⟨_, _, rfl, ⟨_, ⟨_, 0, rfl, rfl, rfl⟩, _, ⟨_, 3, rfl, rfl, rfl⟩, rfl⟩,
    ⟨_, ⟨_, 0, rfl, rfl, rfl⟩, _, ⟨_, 4, rfl, rfl, rfl⟩, rfl⟩, rfl, rfl⟩

end Sys2Proof.Tests
end

section
/-! PROOFS. Operand resolution (41_operands.md): the resolvers' answer in each mode, and the two statements about it.
A mode other than 1 names one address, which a read operand reads and a write target is (R141). -/

namespace Sys2Proof.Machine

/-- The raw operand: operand word i as it stands in memory (R130). -/
def VM.operandWord (v : VM) (i : Nat) : Word := v.mem.read (v.operandAddress i).toNat

/-- The address that operand word p names: in mode 2 the exact sum rb + p, otherwise p itself (R131, R133 to R135). -/
def VM.namedAddress (v : VM) (p : Word) : Mode → Int
  | .relative => v.rb.toInt + p.toInt
  | .position | .immediate => p.toInt

/-- A Word is a legal address unless it is negative: ADDR_MAX is the greatest Word. -/
theorem legalAddress_word_iff (p : Word) : legalAddress p.toInt ↔ 0 ≤ p.toInt :=
  ⟨And.left, fun h => ⟨h, word_toInt_le p⟩⟩

theorem VM.memRead_of_legal {v : VM} {a : Int} (h : legalAddress a) : v.memRead a = .ok (v.mem.read a.toNat) :=
  VM.memRead_ok.2 ⟨h, rfl⟩

theorem VM.memRead_of_illegal {v : VM} {a : Int} (h : ¬legalAddress a) :
    v.memRead a = .error (.raise (.addressError a)) :=
  VM.memRead_error.2 ⟨h, rfl⟩

section
variable {v : VM} {i : Nat} {m : Mode}

/-! ### The operand word lies outside the range -/

theorem VM.resolveRead_of_illegal_operand (h : ¬legalAddress (v.operandAddress i)) (m : Mode) :
    v.resolveRead i m = .error (.raise (.addressError (v.operandAddress i))) := by
  simp only [VM.resolveRead, VM.memRead_of_illegal h]
  rfl

theorem VM.resolveWrite_of_illegal_operand (h : ¬legalAddress (v.operandAddress i)) (hm : m ≠ .immediate) :
    v.resolveWrite i m = .error (.raise (.addressError (v.operandAddress i))) := by
  simp only [VM.resolveWrite, VM.memRead_of_illegal h]
  cases m with
  | immediate => exact absurd rfl hm
  | position => rfl
  | relative => rfl

/-! ### The operand word is read -/

theorem VM.resolveRead_immediate (h : legalAddress (v.operandAddress i)) :
    v.resolveRead i .immediate = .ok ⟨v.operandWord i, v.operandAddress i⟩ := by
  simp only [VM.resolveRead, VM.memRead_of_legal h]
  rfl

/-- A read operand in mode 0 or 2 reads the address its word names. -/
theorem VM.resolveRead_eq_memRead (h : legalAddress (v.operandAddress i)) (hm : m ≠ .immediate) :
    v.resolveRead i m = (v.memRead (v.namedAddress (v.operandWord i) m)).map
      fun x => ⟨x, max (v.operandAddress i) (v.namedAddress (v.operandWord i) m)⟩ := by
  simp only [VM.resolveRead, VM.memRead_of_legal h]
  cases m with
  | immediate => exact absurd rfl hm
  | position => rfl
  | relative => rfl

/-- A write target in mode 0 or 2 is the address its word names: it is checked and not read. -/
theorem VM.resolveWrite_eq_checkTarget (h : legalAddress (v.operandAddress i)) (hm : m ≠ .immediate) :
    v.resolveWrite i m = checkTarget (v.namedAddress (v.operandWord i) m) (v.operandAddress i) := by
  simp only [VM.resolveWrite, VM.memRead_of_legal h]
  cases m with
  | immediate => exact absurd rfl hm
  | position => rfl
  | relative => rfl

/-! ### The named address is in the range, or it is not -/

theorem VM.resolveRead_of_legal (h : legalAddress (v.operandAddress i)) (hm : m ≠ .immediate)
    (ha : legalAddress (v.namedAddress (v.operandWord i) m)) :
    v.resolveRead i m = .ok ⟨v.mem.read (v.namedAddress (v.operandWord i) m).toNat,
      max (v.operandAddress i) (v.namedAddress (v.operandWord i) m)⟩ := by
  rw [VM.resolveRead_eq_memRead h hm, VM.memRead_of_legal ha]
  rfl

theorem VM.resolveRead_of_illegal (h : legalAddress (v.operandAddress i)) (hm : m ≠ .immediate)
    (ha : ¬legalAddress (v.namedAddress (v.operandWord i) m)) :
    v.resolveRead i m = .error (.raise (.addressError (v.namedAddress (v.operandWord i) m))) := by
  rw [VM.resolveRead_eq_memRead h hm, VM.memRead_of_illegal ha]
  rfl

theorem VM.resolveWrite_of_legal (h : legalAddress (v.operandAddress i)) (hm : m ≠ .immediate)
    (ha : legalAddress (v.namedAddress (v.operandWord i) m)) :
    v.resolveWrite i m = .ok ⟨v.namedAddress (v.operandWord i) m, v.operandAddress i⟩ := by
  rw [VM.resolveWrite_eq_checkTarget h hm]
  exact checkTarget_ok.2 ⟨ha, rfl⟩

theorem VM.resolveWrite_of_illegal (h : legalAddress (v.operandAddress i)) (hm : m ≠ .immediate)
    (ha : ¬legalAddress (v.namedAddress (v.operandWord i) m)) :
    v.resolveWrite i m = .error (.raise (.addressError (v.namedAddress (v.operandWord i) m))) := by
  rw [VM.resolveWrite_eq_checkTarget h hm]
  exact checkTarget_error.2 ⟨ha, rfl⟩

end

/-- Settles O6: the operand word first, then by the mode and the range of the address the word names. -/
theorem readOperandResolution : Obligations.ReadOperandResolution := by
  intro v i at_ p
  have position : Mode.position ≠ .immediate := by decide
  have relative : Mode.relative ≠ .immediate := by decide
  refine ⟨VM.resolveRead_of_illegal_operand, fun h => ⟨VM.resolveRead_immediate h, ?_, ?_, ?_, ?_⟩⟩
  · exact fun hp => VM.resolveRead_of_legal h position ((legalAddress_word_iff p).2 hp)
  · exact fun hp => VM.resolveRead_of_illegal h position (mt (legalAddress_word_iff p).1 (not_le.2 hp))
  · exact VM.resolveRead_of_legal h relative
  · exact VM.resolveRead_of_illegal h relative

/-- Settles O7: as for a read operand, but the address the word names is the answer and is not read. -/
theorem writeTargetResolution : Obligations.WriteTargetResolution := by
  intro v i at_ p
  have position : Mode.position ≠ .immediate := by decide
  have relative : Mode.relative ≠ .immediate := by decide
  refine ⟨fun h _ => VM.resolveWrite_of_illegal_operand h, fun h => ⟨?_, ?_, ?_, ?_⟩⟩
  · exact fun hp => VM.resolveWrite_of_legal h position ((legalAddress_word_iff p).2 hp)
  · exact fun hp => VM.resolveWrite_of_illegal h position (mt (legalAddress_word_iff p).1 (not_le.2 hp))
  · exact VM.resolveWrite_of_legal h relative
  · exact VM.resolveWrite_of_illegal h relative

end Sys2Proof.Machine
end

section
/-! PROOFS. IN (44_io.md): its two outcomes once its target resolves, what the run() it suspends returns, and the run()
that executes it again. -/

namespace Sys2Proof.Machine

/-! ### The outcomes of IN -/

section
variable {s : State} {d : Mode} {t : WriteTarget}

/-- R163: the suspend leaves everything but run_state, pc and hwm included. -/
theorem exec_inp_of_empty (ht : s.vm.resolveWrite 1 d = .ok t) (hq : s.vm.inq = []) :
    exec (.inp d) s = .next (s.withVm s.vm.suspend) := by
  have hv : s.vm.effect (.inp d) = .error .suspend := VM.input_suspend.2 ⟨⟨t, ht⟩, hq⟩
  rw [exec_eq_next, hv, VM.conclude_suspend]

/-- R160: the head of the FIFO moves to the target. -/
theorem exec_inp_of_cons {x : Word} {xs : List Word} (ht : s.vm.resolveWrite 1 d = .ok t) (hq : s.vm.inq = x :: xs) :
    exec (.inp d) s = .next (s.withVm { s.vm with
      mem := s.vm.mem.write t.target.toNat x
      hwm := max s.vm.hwm (max (max s.vm.pc.toInt t.target) t.top)
      pc := s.vm.pc + 2
      inq := xs }) := by
  have hh : max (max (max s.vm.hwm s.vm.pc.toInt) t.top) t.target =
      max s.vm.hwm (max (max s.vm.pc.toInt t.target) t.top) := by ac_rfl
  have hv : s.vm.effect (.inp d) = _ := VM.input_eq ht hq
  rw [exec_eq_next, hv, VM.conclude_ok, hh, wrap_advance]
  rfl

/-- The target does not depend on the FIFOs, so IN completes once a Word is there (R114, R160). -/
theorem exec_inp_of_fed {v : VM} {x : Word} (hs : s.vm = { v with inq := [x], outq := [] })
    (ht : v.resolveWrite 1 d = .ok t) :
    ∃ z, exec (.inp d) s = .next z ∧
      z.vm.mem = v.mem.write t.target.toNat x ∧ z.vm.inq = [] ∧ z.vm.pc = v.pc + 2 := by
  have ht' : s.vm.resolveWrite 1 d = .ok t := by
    rw [hs, ← ht]
    exact VM.resolveWrite_congr rfl rfl rfl 1 d
  have hq : s.vm.inq = [x] := by rw [hs]
  refine ⟨_, exec_inp_of_cons ht' hq, ?_⟩
  rw [State.vm_withVm, hs]
  exact ⟨rfl, rfl, rfl⟩

end

/-! ### The run() that ends, and the run() that goes on -/

/-- R188: a run() whose loop guard fails returns. -/
theorem step_run_return {s : State} (ha : s.activity = .run) (hc : ¬s.vm.canStep) : step s = .next s.endRun := by
  rw [step_run ha, if_neg hc]

/-- R189: a suspended instance reports neither Halted nor a fault. -/
theorem VM.status_suspend {v : VM} (hf : v.fault = none) : v.suspend.status = .waitingForInput := by
  simp only [VM.status, VM.suspend_fault, hf, VM.suspend_runState]

/-- R163, R191: the entry of run() undoes a suspend of the running instance. -/
theorem VM.resume_suspend {v : VM} (hf : v.fault = none) (hr : v.runState = .running) : v.suspend.resume = v := by
  rw [VM.resume, if_pos ⟨hf, rfl⟩, ← hr]
  rfl

/-- The host's run() on the instance in focus moves no place. -/
theorem transact_run_index {s : State} (ha : s.activity = .idle) : transact (.run s.index) s = .next s.startRun := by
  simp only [transact, ha, State.onVm, State.focus_index]

/-- The host's enqueue_input on the instance in focus moves no place. -/
theorem transact_enqueueInput_index {s : State} (ha : s.activity = .idle) (x : Word) :
    transact (.enqueueInput s.index x) s = .next ((s.withVm (s.vm.enqueueInput x)).answer .done) := by
  simp only [transact, ha, State.onVm, State.focus_index]

/-- Settles O13: draining the outputs and enqueueing a Word both commute with the suspend, so the entry of the next
run() undoes it (`VM.resume_suspend`), and IN meets the instance it met before. -/
theorem inSuspendsOnEmptyInput : Obligations.InSuspendsOnEmptyInput := by
  intro s d r ha ⟨hf, hr, _⟩ ht hq waiting
  have ends : step waiting = .next waiting.endRun := step_run_return ha s.vm.suspend_not_canStep
  have status : waiting.vm.status = .waitingForInput := VM.status_suspend hf
  have reply : waiting.endRun.reply = some (.ran .waitingForInput s.vm.outq) := by
    rw [State.endRun, status]
    rfl
  have again : waiting.endRun.startRun.vm = s.vm.drain := VM.resume_suspend (v := s.vm.drain) hf hr
  refine ⟨exec_inp_of_empty ht hq, waiting.endRun, ends, rfl, reply, rfl,
    ⟨_, transact_run_index (s := waiting.endRun) rfl, rfl, again⟩, fun x => ?_⟩
  let fed := (waiting.endRun.withVm (waiting.endRun.vm.enqueueInput x)).answer .done
  have resumed : fed.startRun.vm = s.vm.drain.enqueueInput x :=
    VM.resume_suspend (v := s.vm.drain.enqueueInput x) hf hr
  have refed : fed.startRun.vm = { s.vm with inq := [x], outq := [] } := by
    rw [resumed, VM.enqueueInput, VM.drain_inq, hq]
    rfl
  obtain ⟨z, completes⟩ := exec_inp_of_fed refed ht
  exact ⟨fed, fed.startRun, z, transact_enqueueInput_index (s := waiting.endRun) rfl x,
    transact_run_index (s := fed) rfl, rfl, refed, completes⟩

end Sys2Proof.Machine
end

section
/-! PROOFS. The relative base (46_relative_base.md): what an instance's operations do to rb, and that of all steps and
transactions only ARB and load change it. -/

namespace Sys2Proof.Machine

/-- The sentinel at the start of a turn goes to the input FIFO (R214). -/
@[simp] theorem VM.feedSentinel_rb (v : VM) : v.feedSentinel.rb = v.rb := by
  unfold VM.feedSentinel
  split <;> rfl

/-- R182, for one instance: an engine step that raises or suspends keeps rb, and so does every completed instruction
but ARB. -/
theorem VM.conclude_stepEffect_rb (v : VM) :
    (v.conclude v.stepEffect).rb = v.rb ∨ ∃ w m, v.fetch = .ok w ∧ decode w = .ok (.arb m) := by
  rcases v.conclude_stepEffect_cases with ⟨c, raised⟩ | ⟨suspended, -⟩ | ⟨v', w, i, completed, hw, hi, he⟩
  · exact .inl (by rw [raised, VM.takeFault_rb])
  · exact .inl (by rw [suspended, VM.suspend_rb])
  · obtain ⟨-, -, -, -, base, -⟩ := VM.effect_ok_frame he
    rcases base with ⟨m, rfl⟩ | kept
    · exact .inr ⟨w, m, hw, hi⟩
    · exact .inl (by rw [completed, kept])

section
variable {s t : State} {j : Nat} {q q' : Slot}

/-- A step keeps an instance's rb, unless the instance is in focus and its engine executes an ARB: the drain of the
outputs, the start of a turn and the round boundary do not write rb. -/
theorem step_rb (h : step s = .next t) (hq : s.slots[j]? = some q) (hq' : t.slots[j]? = some q') :
    q'.vm.rb = q.vm.rb ∨
      (j = s.index ∧ s.engineHasStep ∧ ∃ w m, s.vm.fetch = .ok w ∧ decode w = .ok (.arb m)) := by
  rcases step_slot h hq hq' with same | drained | ⟨hj, he, rfl, engine⟩ | ⟨-, -, -, begun⟩ | ⟨-, delivered⟩
  · exact .inl (by rw [same])
  · exact .inl (by rw [drained, VM.drain_rb])
  · rcases s.vm.conclude_stepEffect_rb with kept | arb
    · exact .inl ((congrArg VM.rb engine).trans kept)
    · exact .inr ⟨hj, he, arb⟩
  · exact .inl (by rw [begun, VM.resume_rb, VM.feedSentinel_rb])
  · exact .inl (by rw [delivered])

/-- A transaction other than load of the instance and net_init keeps an instance's rb. -/
theorem transact_rb {c : HostCmd} (h : transact c s = .next t) (hq : s.slots[j]? = some q)
    (hq' : t.slots[j]? = some q') :
    q'.vm.rb = q.vm.rb ∨ (∃ image pc0 rb0, c = .load j image pc0 rb0) ∨ ∃ n image, c = .netInit n image := by
  rcases transact_slot h hq hq' with netInit | ⟨-, -, same | ⟨image, pc0, rb0, load, -⟩ | ⟨v, -, fed⟩ | ⟨-, resumed⟩ |
    ⟨a, v, -, -, poked⟩⟩
  · exact .inr (.inr netInit)
  · exact .inl (by rw [same])
  · exact .inr (.inl ⟨image, pc0, rb0, load⟩)
  · exact .inl (by rw [fed, VM.enqueueInput_rb])
  · exact .inl (by rw [resumed, VM.resume_rb])
  · exact .inl (by rw [poked, VM.store_rb])

end

/-- Settles O21: `step_rb` and `transact_rb`, where rb did change. -/
theorem onlyArbAndLoadChangeTheBase : Obligations.OnlyArbAndLoadChangeTheBase :=
  ⟨fun _ _ _ _ _ h hq hq' changed => (step_rb h hq hq').resolve_left changed,
    fun _ _ _ _ _ _ h hq hq' changed => (transact_rb h hq hq').resolve_left changed⟩

end Sys2Proof.Machine
end

section
/-! PROOFS. peek_memory (47_vm_instance.md R193): what it answers, and that it touches nothing but the reply. -/

namespace Sys2Proof.Machine

/-- R51: an address that no cell lists reads as 0. -/
theorem Memory.read_of_not_listed {m : Memory} {a : Nat} (h : ∀ w, (a, w) ∉ m) : m.read a = 0 := by
  induction m with
  | nil => exact Memory.read_nil a
  | cons c m ih =>
    obtain ⟨k, v⟩ := c
    have hk : k ≠ a := by
      rintro rfl
      exact h v List.mem_cons_self
    rw [Memory.read, if_neg hk]
    exact ih fun w hw => h w (List.mem_cons_of_mem _ hw)

/-- What peek_memory(a) hands back from an instance with this memory (R193, R260). -/
def Memory.peekReply (m : Memory) (a : Int) : Reply :=
  if legalAddress a then .word (m.read a.toNat) else .addressError a

theorem Memory.peekReply_of_legal {a : Int} (h : legalAddress a) (m : Memory) :
    m.peekReply a = .word (m.read a.toNat) := if_pos h

theorem Memory.peekReply_of_illegal {a : Int} (h : ¬legalAddress a) (m : Memory) :
    m.peekReply a = .addressError a := if_neg h

/-- peek_memory is a reply and nothing else. -/
theorem State.peek_eq_answer (s : State) (a : Int) : s.peek a = s.answer (s.vm.mem.peekReply a) :=
  (apply_ite s.answer (legalAddress a) (.word (s.vm.mem.read a.toNat)) (.addressError a)).symm

/-- Settles O36: focusing the instance reorders no place (`State.focus_eq`), and peek_memory only answers
(`State.peek_eq_answer`). -/
theorem peekReadsAndChangesNothing : Obligations.PeekReadsAndChangesNothing := by
  intro s i a q idle place
  obtain ⟨u, focused, rfl, next⟩ := State.onVm_of_slot place (fun t => t.peek a)
  obtain ⟨slots, -, -, egress, netFault, activity, -⟩ := State.focus_eq focused
  have answered : transact (.peekMemory i a) s = .next (u.answer (u.vm.mem.peekReply a)) := by
    simp only [transact, idle, next]
    rw [State.peek_eq_answer]
  refine ⟨_, answered, activity.trans idle, slots, egress, netFault, fun legal => ?_, fun illegal => ?_,
    fun legal unlisted => ?_⟩
  · exact congrArg some (Memory.peekReply_of_legal legal _)
  · exact congrArg some (Memory.peekReply_of_illegal illegal _)
  · have zero : u.vm.mem.read a.toNat = 0 := Memory.read_of_not_listed unlisted
    rw [State.answer, Memory.peekReply_of_legal legal, zero]

end Sys2Proof.Machine
end

section
/-! PROOFS. The invariant of the machine (10_state.md R36): it is a fact about each place and a fact about what is staged
between rounds; every move of the engine, the router and the host keeps both. -/

namespace Sys2Proof.Machine

/-- What the invariant of the machine says of every place, whatever is in progress. -/
structure Slot.Inv (q : Slot) : Prop where
  vm : q.vm.Inv
  partialOut : q.partialOut.length ≤ 2

/-- Outside a round: the host has the move, or a run() it issued is in progress. -/
abbrev Activity.outsideRound (a : Activity) : Prop := a = .idle ∨ a = .run

theorem State.Inv.slot {s : State} (h : s.Inv) {q : Slot} (hq : q ∈ s.slots) : q.Inv :=
  ⟨h.instances q hq, h.partials q hq⟩

theorem State.Inv.focused {s : State} (h : s.Inv) : s.slot.Inv := h.slot (State.mem_slots.2 (.inr (.inl rfl)))

/-- A round in progress: the network's latch is clear, and the invariant asks nothing of what is staged. -/
theorem State.inv_of_round {s : State} (hq : ∀ q ∈ s.slots, q.Inv) (hn : s.netFault = none)
    (ha : ¬s.activity.outsideRound) : s.Inv :=
  ⟨fun q h => (hq q h).vm, fun q h => (hq q h).partialOut, fun _ h => absurd h ha, fun h => absurd hn h⟩

/-- No round in progress: nothing is staged unless the network's fault is latched (log 11). -/
theorem State.inv_of_outsideRound {s : State} (hq : ∀ q ∈ s.slots, q.Inv)
    (hs : s.netFault = none → ∀ q ∈ s.slots, q.stage = []) (ha : s.activity.outsideRound) : s.Inv :=
  ⟨fun q h => (hq q h).vm, fun q h => (hq q h).partialOut, fun hn _ => hs hn, fun _ => ha⟩

/-- The invariant reads the places, the network's latch and the activity, not the focus, egress or the reply. -/
theorem State.Inv.of_eq {s t : State} (h : s.Inv) (hs : t.slots = s.slots) (hn : t.netFault = s.netFault)
    (ha : t.activity = s.activity) : t.Inv := by
  obtain ⟨instances, partials, staged, noRound⟩ := h
  rw [← hs] at instances partials staged
  rw [← hn, ← ha] at staged noRound
  exact ⟨instances, partials, staged, noRound⟩

/-- A round in progress says that the network's latch is clear. -/
theorem State.Inv.netFault_none {s : State} (h : s.Inv) (ha : ¬s.activity.outsideRound) : s.netFault = none := by
  by_contra hn
  exact ha (h.noRoundAfterFault hn)

theorem State.Inv.answer {s : State} (h : s.Inv) (r : Reply) : (s.answer r).Inv := h.of_eq rfl rfl rfl

theorem State.Inv.focus {s u : State} {i : Nat} (h : s.Inv) (hu : s.focus i = some u) : u.Inv := by
  obtain ⟨slots, -, -, -, netFault, activity, -⟩ := State.focus_eq hu
  exact h.of_eq slots netFault activity

/-- An instance with the invariant may be put in the place of the one in focus. -/
theorem State.Inv.withVm {s : State} {v : VM} (h : s.Inv) (hv : v.Inv) : (s.withVm v).Inv := by
  have others : ∀ {P : Slot → Prop}, (∀ q ∈ s.slots, P q) → P { s.slot with vm := v } → ∀ q ∈ (s.withVm v).slots, P q := by
    intro P hP hslot q hq
    rcases State.mem_slots.1 hq with hq | rfl | hq
    · exact hP q (State.mem_slots.2 (.inl hq))
    · exact hslot
    · exact hP q (State.mem_slots.2 (.inr (.inr hq)))
  have here : s.slot ∈ s.slots := State.mem_slots.2 (.inr (.inl rfl))
  exact ⟨others h.instances hv, others h.partials (h.partials s.slot here),
    fun hn ha => others (h.staged hn ha) (h.staged hn ha s.slot here), h.noRoundAfterFault⟩

/-! ### Instances -/

theorem VM.drain_inv {v : VM} (hv : v.Inv) : v.drain.Inv := VM.inv_of_queues hv v.inq []

theorem VM.enqueueInput_inv {v : VM} (hv : v.Inv) (x : Word) : (v.enqueueInput x).Inv :=
  VM.inv_of_queues hv (v.inq ++ [x]) v.outq

theorem VM.feedSentinel_inv {v : VM} (hv : v.Inv) : v.feedSentinel.Inv := by
  unfold VM.feedSentinel
  split
  · exact VM.enqueueInput_inv hv _
  · exact hv

/-! ### The moves of a step -/

/-- The run() of the host returns (R190). -/
theorem State.Inv.endRun {s : State} (h : s.Inv) (ha : s.activity = .run) : s.endRun.Inv := by
  have drained := h.withVm (VM.drain_inv h.focused.vm)
  exact State.inv_of_outsideRound (fun _ => drained.slot) (fun hn => drained.staged hn (.inr ha)) (.inl rfl)

theorem State.nextPlace_inRound (s : State) (c : RoundCtl) : ¬(s.nextPlace c).activity.outsideRound := by
  unfold State.nextPlace
  split <;> simp

/-- The router goes on with the round. -/
theorem State.nextPlace_inv {s : State} (c : RoundCtl) (hq : ∀ q ∈ s.slots, q.Inv) (hn : s.netFault = none) :
    (s.nextPlace c).Inv := by
  obtain ⟨slots, -, netFault, -⟩ := s.nextPlace_eq c
  exact State.inv_of_round (by rwa [slots]) (netFault.trans hn) (s.nextPlace_inRound c)

/-- The turn begins, or a halted instance is passed over (R213, R214). -/
theorem State.Inv.beginTurn {s : State} {c : RoundCtl} (h : s.Inv) (ha : s.activity = .turn c) : (s.beginTurn c).Inv := by
  have hn : s.netFault = none := h.netFault_none (by simp [ha])
  unfold State.beginTurn
  split
  · exact State.nextPlace_inv c (fun _ => h.slot) hn
  · have fed := h.withVm (VM.resume_inv (VM.feedSentinel_inv h.focused.vm))
    exact State.inv_of_round (fun _ => fed.slot) hn (by simp)

/-- Two lists of places of one length: every place of the one stands against a place of the other. -/
theorem exists_place_of_length_eq {xs ys : List Slot} (h : ys.length = xs.length) {q' : Slot} (hq' : q' ∈ ys) :
    ∃ (j : Nat) (q : Slot), xs[j]? = some q ∧ ys[j]? = some q' := by
  obtain ⟨j, hj, rfl⟩ := List.getElem_of_mem hq'
  exact ⟨j, xs[j], List.getElem?_eq_getElem _, List.getElem?_eq_getElem _⟩

/-- The turn ends without a fault: the outputs are drained and fewer than three Words are kept (R216). -/
theorem State.Inv.endTurn_of_no_fault {s : State} {c : RoundCtl} (h : s.Inv) (hn : s.netFault = none)
    (hf : s.vm.fault = none) : (s.endTurn c).Inv := by
  obtain ⟨length, places, -, netFault, before, last⟩ := State.endTurn_eq c hf
  refine State.inv_of_round (fun q' hq' => ?_) (netFault.trans hn) ?_
  · obtain ⟨j, q, hq, hj⟩ := exists_place_of_length_eq length hq'
    have hqi := h.slot (List.mem_of_getElem? hq)
    rw [places j q hq, Option.some.injEq] at hj
    subst hj
    constructor
    · dsimp only
      split
      · exact VM.drain_inv hqi.vm
      · exact hqi.vm
    · dsimp only
      split
      · exact Nat.le_of_lt_succ (cutPackets_rest _)
      · exact hqi.partialOut
  · rcases Nat.lt_or_ge (s.index + 1) s.size with hlt | hge
    · simp [(before hlt).2]
    · have hsize : s.index + 1 = s.size := by simp only [State.index, State.size] at hge ⊢; omega
      simp [(last hsize).2]

/-- The turn ends in a fault, which stops the network with its latch set (R222). -/
theorem State.endTurn_of_fault {s : State} (c : RoundCtl) {r : FaultRecord} (hf : s.vm.fault = some r) :
    s.endTurn c = { s.withVm s.vm.drain with
      netFault := some (s.index, r), activity := .idle, reply := some (.netFault s.index r) } := by
  unfold State.endTurn
  rw [hf]

theorem State.Inv.endTurn {s : State} {c : RoundCtl} (h : s.Inv) (ha : s.activity = .turnRun c) :
    (s.endTurn c).Inv := by
  cases hf : s.vm.fault with
  | none => exact h.endTurn_of_no_fault (h.netFault_none (by simp [ha])) hf
  | some r =>
    rw [State.endTurn_of_fault c hf]
    have drained := h.withVm (VM.drain_inv h.focused.vm)
    exact State.inv_of_outsideRound (fun _ => drained.slot) (fun hn => by cases hn) (.inl rfl)

/-- A round begins with the network's latch clear (R224). -/
theorem State.startRound_of_no_fault {s : State} (loop : Bool) (hn : s.netFault = none) :
    s.startRound loop =
      { s.rewind with activity := .turn { sent := 0, turns := 0, loop := loop }, reply := none } := by
  unfold State.startRound
  rw [hn]

/-- The network's fault is returned again (R222). -/
theorem State.startRound_of_fault {s : State} (loop : Bool) {i : Nat} {r : FaultRecord}
    (hn : s.netFault = some (i, r)) :
    s.startRound loop = { s with activity := .idle, reply := some (.netFault i r) } := by
  unfold State.startRound
  rw [hn]

theorem State.startRound_inv {s : State} (loop : Bool) (hq : ∀ q ∈ s.slots, q.Inv) (hn : s.netFault = none) :
    (s.startRound loop).Inv := by
  obtain ⟨-, -, -, netFault, -⟩ := s.rewind_eq
  refine State.inv_of_round ?_ ?_ ?_
  · rwa [State.startRound_slots]
  · rw [State.startRound_of_no_fault loop hn]
    exact netFault.trans hn
  · simp [State.startRound_of_no_fault loop hn]

/-- The round boundary delivers all that is staged (R219). -/
theorem State.Inv.endRound {s : State} {c : RoundCtl} (h : s.Inv) (ha : s.activity = .deliver c) : (s.endRound c).Inv := by
  have hn : s.netFault = none := h.netFault_none (by simp [ha])
  have delivered : ∀ q ∈ (s.mapSlots Slot.deliver).slots, q.Inv ∧ q.stage = [] := by
    intro q' hq'
    rw [State.mapSlots_slots] at hq'
    obtain ⟨q, hq, rfl⟩ := List.mem_map.1 hq'
    exact ⟨⟨VM.inv_of_queues (h.slot hq).vm _ _, (h.slot hq).partialOut⟩, rfl⟩
  unfold State.endRound
  dsimp only
  split
  · exact State.startRound_inv true (fun q hq => (delivered q hq).1) hn
  · exact State.inv_of_outsideRound (fun q hq => (delivered q hq).1) (fun _ q hq => (delivered q hq).2) (.inl rfl)

/-- Settles O49: each move of a step keeps the invariant (`step_cases`); an instruction keeps its instance's
(`VM.conclude_stepEffect_inv`). -/
theorem invariantKeptByEveryStep : Obligations.InvariantKeptByEveryStep := by
  intro s t h hst
  rcases step_cases hst with ⟨⟨-, guard⟩, rfl⟩ | ⟨ha, -, rfl⟩ | ⟨c, ha, rfl⟩ | ⟨c, ha, -, rfl⟩ | ⟨c, ha, rfl⟩
  · exact h.withVm (VM.conclude_stepEffect_inv h.focused.vm guard)
  · exact h.endRun ha
  · exact h.beginTurn ha
  · exact h.endTurn ha
  · exact h.endRound ha

/-! ### The transactions -/

theorem imageOk_iff {image : List Int} :
    imageOk image = true ↔
      (image.length : Int) ≤ Config.addrMax + 1 ∧ ∀ v ∈ image, Config.wordMin ≤ v ∧ v ≤ Config.wordMax := by
  simp only [imageOk, Bool.and_eq_true, decide_eq_true_eq, List.all_eq_true]

/-- load of an image that is accepted gives an instance with the invariant. -/
theorem VM.load_inv_of_imageOk {image : List Int} (h : imageOk image = true) (pc0 rb0 : Word) :
    (VM.load (image.map wrap) pc0 rb0).Inv :=
  VM.load_inv (by simpa using (imageOk_iff.1 h).1)

theorem State.Inv.loadImage {s : State} {image : List Int} {pc0 rb0 : Word} (h : s.Inv) :
    (s.loadImage image pc0 rb0).Inv := by
  unfold State.loadImage
  split
  · next ok => exact (h.withVm (VM.load_inv_of_imageOk ok pc0 rb0)).answer _
  · exact h.answer _

theorem State.Inv.pokeMem {s : State} {a : Int} {x : Word} (h : s.Inv) : (s.pokeMem a x).Inv := by
  unfold State.pokeMem
  split
  · next legal =>
    rw [VM.poke, if_pos legal]
    exact (h.withVm (VM.store_inv h.focused.vm legal)).answer _
  · exact h.answer _

theorem State.Inv.peek {s : State} {a : Int} (h : s.Inv) : (s.peek a).Inv := by
  rw [State.peek_eq_answer]
  exact h.answer _

theorem State.Inv.startRun {s : State} (h : s.Inv) (ha : s.activity = .idle) : s.startRun.Inv := by
  have resumed := h.withVm (VM.resume_inv h.focused.vm)
  exact State.inv_of_outsideRound (fun _ => resumed.slot) (fun hn => resumed.staged hn (.inl ha)) (.inr rfl)

theorem State.Inv.startRound {s : State} (h : s.Inv) (ha : s.activity = .idle) (loop : Bool) :
    (s.startRound loop).Inv := by
  cases hn : s.netFault with
  | none => exact State.startRound_inv loop (fun _ => h.slot) hn
  | some ir =>
    rw [State.startRound_of_fault loop hn]
    exact h.of_eq rfl rfl ha.symm

/-- The places of a network that net_init made (R211). -/
def netSlots (image : List Word) (n : Nat) : List Slot := (List.range n).map (freshSlot image)

/-- net_init of an image that is accepted (R211). -/
theorem State.netInit_of_imageOk {s : State} {n : Nat} {image : List Int} (h1 : 1 ≤ n) (h2 : (n : Int) ≤ Config.addrMax + 1)
    (ok : imageOk image = true) :
    ∃ t, s.netInit n image = .next t ∧ t.slots = netSlots (image.map wrap) n ∧ t.egress = [] ∧ t.netFault = none ∧
      t.activity = .idle := by
  have size : ¬(n = 0 ∨ Config.addrMax + 1 < (n : Int)) := by omega
  refine ⟨_, by rw [State.netInit, if_neg size, if_pos ok], ?_, rfl, rfl, rfl⟩
  obtain ⟨k, rfl⟩ : ∃ k, n = k + 1 := ⟨n - 1, by omega⟩
  simp [State.slots, netSlots, List.range_succ_eq_map, List.range'_eq_map_range, Function.comp_def, Nat.add_comm]

/-- net_init of an image that is not accepted (R260, log 18). -/
theorem State.netInit_of_not_imageOk {s : State} {n : Nat} {image : List Int} (h1 : 1 ≤ n)
    (h2 : (n : Int) ≤ Config.addrMax + 1) (bad : ¬imageOk image = true) :
    s.netInit n image = .next (s.answer .badImage) := by
  rw [State.netInit, if_neg (by omega), if_neg bad]

/-- What net_init does, where it is not refused. -/
theorem State.netInit_cases {s t : State} {n : Nat} {image : List Int} (h : s.netInit n image = .next t) :
    (imageOk image = true ∧ t.slots = netSlots (image.map wrap) n ∧ t.netFault = none ∧ t.activity = .idle) ∨
      t = s.answer .badImage := by
  by_cases size : n = 0 ∨ Config.addrMax + 1 < (n : Int)
  · rw [State.netInit, if_pos size] at h
    cases h
  by_cases ok : imageOk image = true
  · obtain ⟨u, hu, slots, -, netFault, activity⟩ := State.netInit_of_imageOk (s := s) (n := n) (by omega) (by omega) ok
    cases h.symm.trans hu
    exact .inl ⟨ok, slots, netFault, activity⟩
  · cases h.symm.trans (State.netInit_of_not_imageOk (s := s) (by omega) (by omega) ok)
    exact .inr rfl

theorem mem_netSlots {image : List Word} {n : Nat} {q : Slot} (h : q ∈ netSlots image n) :
    ∃ i, q = freshSlot image i := by
  obtain ⟨i, -, rfl⟩ := List.mem_map.1 h
  exact ⟨i, rfl⟩

theorem State.Inv.netInit {s t : State} {n : Nat} {image : List Int} (h : s.Inv) (ht : s.netInit n image = .next t) :
    t.Inv := by
  rcases State.netInit_cases ht with ⟨ok, slots, netFault, activity⟩ | rfl
  · refine State.inv_of_outsideRound (fun q hq => ?_) (fun _ q hq => ?_) (.inl activity)
    · obtain ⟨i, rfl⟩ := mem_netSlots (slots ▸ hq)
      exact ⟨VM.enqueueInput_inv (VM.load_inv_of_imageOk ok _ _) _, Nat.zero_le 2⟩
    · obtain ⟨i, rfl⟩ := mem_netSlots (slots ▸ hq)
      rfl
  · exact h.answer _

/-- Settles O50: each transaction (`transact_cases`) focuses a place, which keeps the invariant, and then makes one move. -/
theorem invariantKeptByEveryTransaction : Obligations.InvariantKeptByEveryTransaction := by
  intro c s t h hst
  have idle : s.activity = .idle := transact_idle hst
  rcases transact_cases hst with ⟨i, image, pc0, rb0, u, -, hu, rfl⟩ | ⟨i, v, u, -, hu, rfl⟩ | ⟨i, u, -, hu, rfl⟩ |
    ⟨i, a, u, -, hu, rfl⟩ | ⟨i, a, v, u, -, hu, rfl⟩ | ⟨n, image, -, ht⟩ | ⟨loop, -, rfl⟩ | ⟨-, rfl⟩
  · exact (h.focus hu).loadImage
  · exact ((h.focus hu).withVm (VM.enqueueInput_inv (h.focus hu).focused.vm v)).answer _
  · obtain ⟨-, -, -, -, -, activity, -⟩ := State.focus_eq hu
    exact (h.focus hu).startRun (activity.trans idle)
  · exact (h.focus hu).peek
  · exact (h.focus hu).pokeMem
  · exact h.netInit ht
  · exact h.startRound idle loop
  · exact h.of_eq rfl rfl rfl

/-- Settles O48: power-on is a load of the empty image (R34). -/
theorem invariantHoldsAtReset : Obligations.InvariantHoldsAtReset := by
  have only : ∀ q ∈ State.reset.slots, q = State.reset.slot := fun q hq => List.mem_singleton.1 hq
  have powerOn : State.reset.vm.Inv := VM.load_inv (image := []) (pc0 := Config.pc0) (rb0 := Config.rb0) (by decide)
  refine State.inv_of_outsideRound (fun q hq => ?_) (fun _ q hq => ?_) (.inl rfl)
  · rw [only q hq]
    exact ⟨powerOn, Nat.zero_le 2⟩
  · rw [only q hq]
    rfl

end Sys2Proof.Machine
end

section
/-! PROOFS. The decoder (30_encoding.md): it reads a word by the row of the opcode table (R85) that the two low digits name,
and the row says which operands the word declares. From that, what decode answers exactly (R98), and its round trip with
the encoder (R81). -/

namespace Sys2Proof

/-! ### The rows of the opcode table, by the operands they declare (R85) -/

/-- The rows with two read operands and a write target. -/
inductive ReadReadWriteRow : Nat → (Mode → Mode → Mode → Instr) → Prop where
  | add : ReadReadWriteRow 1 .add
  | mul : ReadReadWriteRow 2 .mul
  | lt : ReadReadWriteRow 7 .lt
  | eq : ReadReadWriteRow 8 .eq

/-- The rows with two read operands. -/
inductive ReadReadRow : Nat → (Mode → Mode → Instr) → Prop where
  | jt : ReadReadRow 5 .jt
  | jf : ReadReadRow 6 .jf

/-- The rows with one read operand. -/
inductive ReadRow : Nat → (Mode → Instr) → Prop where
  | out : ReadRow 4 .out
  | arb : ReadRow 9 .arb

/-- What the row of opcode n makes of the word w (R87, R98). -/
inductive DecodeRow (w : Word) : Nat → Except FaultCause Instr → Prop where
  | readReadWrite {n : Nat} {k : Mode → Mode → Mode → Instr} :
      ReadReadWriteRow n k → DecodeRow w n (decodeReadReadWrite w k)
  | readRead {n : Nat} {k : Mode → Mode → Instr} : ReadReadRow n k → DecodeRow w n (decodeReadRead w k)
  | read {n : Nat} {k : Mode → Instr} : ReadRow n k → DecodeRow w n (do return k (← decodeReadMode w 1))
  | write : DecodeRow w 3 (do return .inp (← decodeWriteMode w 1))
  | halt : DecodeRow w 99 (.ok .halt)
  | absent {n : Nat} : arityTable.lookup n = none → DecodeRow w n (.error (.badOpcode w))

theorem decode_of_negative {w : Word} (h : w.toInt < 0) : decode w = .error (.badOpcode w) := by
  unfold decode
  rw [if_pos h]

theorem decode_row {w : Word} (h : 0 ≤ w.toInt) : DecodeRow w (opcodeOf w) (decode w) := by
  unfold decode
  rw [if_neg (not_lt.2 h)]
  split
  · next op => rw [op]; exact .readReadWrite .add
  · next op => rw [op]; exact .readReadWrite .mul
  · next op => rw [op]; exact .write
  · next op => rw [op]; exact .read .out
  · next op => rw [op]; exact .readRead .jt
  · next op => rw [op]; exact .readRead .jf
  · next op => rw [op]; exact .readReadWrite .lt
  · next op => rw [op]; exact .readReadWrite .eq
  · next op => rw [op]; exact .read .arb
  · next op => rw [op]; exact .halt
  · refine .absent ?_
    simp_all [arityTable, List.lookup_eq_none_iff]

/-! ### The instructions that decode answers -/

theorem Instr.wellFormed_iff (i : Instr) : i.wellFormed = true ↔ i.writeMode ≠ some .immediate := by
  unfold Instr.wellFormed
  split <;> simp [*]

/-- The mode digits of the first n operands of w, operand 1 first (R83). -/
def declaredDigits (w : Word) (n : Nat) : List Nat := (List.range n).map (fun k => modeDigit w (k + 1))

theorem declaredDigits_one (w : Word) : declaredDigits w 1 = [modeDigit w 1] := rfl
theorem declaredDigits_two (w : Word) : declaredDigits w 2 = [modeDigit w 1, modeDigit w 2] := rfl
theorem declaredDigits_three (w : Word) : declaredDigits w 3 = [modeDigit w 1, modeDigit w 2, modeDigit w 3] := rfl

/-- The instruction i is what an opcode n and the declared digits of w say. -/
structure Instr.ReadFrom (i : Instr) (w : Word) (n : Nat) : Prop where
  opcode : i.opcode = n
  wellFormed : i.writeMode ≠ some .immediate
  digits : declaredDigits w i.modes.length = i.modes.map Mode.digit

theorem ReadReadWriteRow.shape {n : Nat} {k : Mode → Mode → Mode → Instr} (h : ReadReadWriteRow n k) (a b d : Mode) :
    (k a b d).opcode = n ∧ (k a b d).modes = [a, b, d] ∧ (k a b d).writeMode = some d := by
  cases h <;> exact ⟨rfl, rfl, rfl⟩

theorem ReadReadWriteRow.exists_eq {n : Nat} {k : Mode → Mode → Mode → Instr} (h : ReadReadWriteRow n k) {i : Instr}
    (hi : i.opcode = n) : ∃ a b d, i = k a b d := by
  cases h <;> cases i <;> simp [Instr.opcode] at hi ⊢

theorem ReadReadRow.shape {n : Nat} {k : Mode → Mode → Instr} (h : ReadReadRow n k) (a b : Mode) :
    (k a b).opcode = n ∧ (k a b).modes = [a, b] ∧ (k a b).writeMode = none := by
  cases h <;> exact ⟨rfl, rfl, rfl⟩

theorem ReadReadRow.exists_eq {n : Nat} {k : Mode → Mode → Instr} (h : ReadReadRow n k) {i : Instr}
    (hi : i.opcode = n) : ∃ a b, i = k a b := by
  cases h <;> cases i <;> simp [Instr.opcode] at hi ⊢

theorem ReadRow.shape {n : Nat} {k : Mode → Instr} (h : ReadRow n k) (a : Mode) :
    (k a).opcode = n ∧ (k a).modes = [a] ∧ (k a).writeMode = none := by
  cases h <;> exact ⟨rfl, rfl, rfl⟩

theorem ReadRow.exists_eq {n : Nat} {k : Mode → Instr} (h : ReadRow n k) {i : Instr} (hi : i.opcode = n) :
    ∃ a, i = k a := by
  cases h <;> cases i <;> simp [Instr.opcode] at hi ⊢

theorem Instr.eq_inp_of_opcode {i : Instr} (hi : i.opcode = 3) : ∃ d, i = .inp d := by
  cases i <;> simp [Instr.opcode] at hi ⊢

theorem Instr.eq_halt_of_opcode {i : Instr} (hi : i.opcode = 99) : i = .halt := by
  cases i <;> simp [Instr.opcode] at hi ⊢

/-- What each constructor's canonical word holds (Laws/PerInstr.lean), for every instruction. -/
theorem encodeShape (i : Instr) : Laws.EncodeShape.Statement i := by
  cases i with
  | add a b d => exact Laws.EncodeShape.add a b d
  | mul a b d => exact Laws.EncodeShape.mul a b d
  | inp d => exact Laws.EncodeShape.inp d
  | out a => exact Laws.EncodeShape.out a
  | jt c t => exact Laws.EncodeShape.jt c t
  | jf c t => exact Laws.EncodeShape.jf c t
  | lt a b d => exact Laws.EncodeShape.lt a b d
  | eq a b d => exact Laws.EncodeShape.eq a b d
  | arb a => exact Laws.EncodeShape.arb a
  | halt => exact Laws.EncodeShape.halt

theorem Instr.lookup_arity (i : Instr) : arityTable.lookup i.opcode = some i.arity := (encodeShape i).2.2.2.1

theorem Instr.length_modes (i : Instr) : i.modes.length = i.arity := (encodeShape i).2.2.2.2

/-- A row answers exactly the instruction that the digits of its operands say. -/
theorem DecodeRow.ok_iff {w : Word} {n : Nat} {r : Except FaultCause Instr} (row : DecodeRow w n r) (i : Instr) :
    r = .ok i ↔ i.ReadFrom w n := by
  cases row with
  | readReadWrite h =>
    rw [decodeReadReadWrite_ok]
    constructor
    · rintro ⟨a, b, d, ha, hb, hd, target, rfl⟩
      obtain ⟨opcode, modes, writeMode⟩ := h.shape a b d
      exact ⟨opcode, by simpa [writeMode] using target, by simp [modes, declaredDigits_three, ha, hb, hd]⟩
    · rintro ⟨hi, target, digits⟩
      obtain ⟨a, b, d, rfl⟩ := h.exists_eq hi
      obtain ⟨-, modes, writeMode⟩ := h.shape a b d
      obtain ⟨ha, hb, hd⟩ : modeDigit w 1 = a.digit ∧ modeDigit w 2 = b.digit ∧ modeDigit w 3 = d.digit := by
        simpa [modes, declaredDigits_three] using digits
      exact ⟨a, b, d, ha, hb, hd, by simpa [writeMode] using target, rfl⟩
  | readRead h =>
    rw [decodeReadRead_ok]
    constructor
    · rintro ⟨a, b, ha, hb, rfl⟩
      obtain ⟨opcode, modes, writeMode⟩ := h.shape a b
      exact ⟨opcode, by simp [writeMode], by simp [modes, declaredDigits_two, ha, hb]⟩
    · rintro ⟨hi, -, digits⟩
      obtain ⟨a, b, rfl⟩ := h.exists_eq hi
      obtain ⟨-, modes, -⟩ := h.shape a b
      obtain ⟨ha, hb⟩ : modeDigit w 1 = a.digit ∧ modeDigit w 2 = b.digit := by
        simpa [modes, declaredDigits_two] using digits
      exact ⟨a, b, ha, hb, rfl⟩
  | read h =>
    rw [decodeRead_ok]
    constructor
    · rintro ⟨a, ha, rfl⟩
      obtain ⟨opcode, modes, writeMode⟩ := h.shape a
      exact ⟨opcode, by simp [writeMode], by simp [modes, declaredDigits_one, ha]⟩
    · rintro ⟨hi, -, digits⟩
      obtain ⟨a, rfl⟩ := h.exists_eq hi
      obtain ⟨-, modes, -⟩ := h.shape a
      exact ⟨a, by simpa [modes, declaredDigits_one] using digits, rfl⟩
  | write =>
    rw [decodeWrite_ok]
    constructor
    · rintro ⟨d, hd, target, rfl⟩
      exact ⟨rfl, by simpa [Instr.writeMode] using target, by simp [Instr.modes, declaredDigits_one, hd]⟩
    · rintro ⟨hi, target, digits⟩
      obtain ⟨d, rfl⟩ := Instr.eq_inp_of_opcode hi
      exact ⟨d, by simpa [Instr.modes, declaredDigits_one] using digits, by simpa [Instr.writeMode] using target, rfl⟩
  | halt =>
    constructor
    · rintro ⟨⟩
      exact ⟨rfl, by simp [Instr.writeMode], rfl⟩
    · rintro ⟨hi, -, -⟩
      rw [Instr.eq_halt_of_opcode hi]
  | absent h =>
    constructor
    · rintro ⟨⟩
    · rintro ⟨rfl, -, -⟩
      rw [i.lookup_arity] at h
      cases h

/-- Exactly when decode answers the instruction i (R98, D5). -/
theorem decode_ok_iff {w : Word} {i : Instr} : decode w = .ok i ↔ 0 ≤ w.toInt ∧ i.ReadFrom w (opcodeOf w) := by
  by_cases h : 0 ≤ w.toInt
  · rw [(decode_row h).ok_iff i]
    exact (and_iff_right h).symm
  · rw [decode_of_negative (not_le.1 h)]
    exact ⟨nofun, fun hd => absurd hd.1 h⟩

/-! ### The digits as one number -/

theorem Instr.opcode_lt (i : Instr) : i.opcode < 100 := by cases i <;> simp [Instr.opcode]

/-- The digits of a number's lower places are given if and only if the number they make is (R81, R83). -/
theorem mod_eq_modesValue_iff (ms : List Mode) (x : Nat) :
    x % 10 ^ ms.length = modesValue ms ↔ (List.range ms.length).map (fun k => x / 10 ^ k % 10) = ms.map Mode.digit := by
  induction ms generalizing x with
  | nil => simp [modesValue, Nat.mod_one]
  | cons m ms ih =>
    have split : x % 10 ^ (m :: ms).length = x % 10 + 10 * (x / 10 % 10 ^ ms.length) := by
      rw [List.length_cons, pow_succ', Nat.mod_mul]
    have shift : ∀ k, x / 10 ^ (k + 1) = x / 10 / 10 ^ k := fun k => by rw [pow_succ', Nat.div_div_eq_div_mul]
    have hm := m.digit_lt
    have hx := Nat.mod_lt x (by decide : 0 < 10)
    rw [split, List.length_cons, List.range_succ_eq_map]
    simp only [List.map_cons, List.map_map, Function.comp_def, Nat.succ_eq_add_one, shift, pow_zero, Nat.div_one,
      List.cons.injEq, modesValue, ← ih (x / 10)]
    omega

/-- The low digits of a word are the canonical word's if and only if opcode and declared digits are the instruction's. -/
theorem mod_eq_encodeNat_iff (w : Word) (i : Instr) :
    w.toNat % 10 ^ (i.arity + 2) = i.encodeNat ↔
      i.opcode = opcodeOf w ∧ declaredDigits w i.modes.length = i.modes.map Mode.digit := by
  have digits : declaredDigits w i.modes.length =
      (List.range i.modes.length).map (fun k => w.toNat / 100 / 10 ^ k % 10) := by
    refine List.map_congr_left fun k _ => ?_
    rw [modeDigit, Nat.div_div_eq_div_mul, show k + 1 + 1 = 2 + k by omega, pow_add]
    norm_num
  have split : w.toNat % 10 ^ (i.arity + 2) = w.toNat % 100 + 100 * (w.toNat / 100 % 10 ^ i.modes.length) := by
    rw [i.length_modes, add_comm, pow_add, Nat.mod_mul]
    norm_num
  have hi := i.opcode_lt
  rw [digits, ← mod_eq_modesValue_iff, split, Instr.encodeNat, opcodeOf]
  omega

/-- Settles O3: `decode_ok_iff`, its digits put together to one number. -/
theorem decodeReadsExactlyTheDeclaredDigits : Obligations.DecodeReadsExactlyTheDeclaredDigits := by
  intro w i
  rw [decode_ok_iff, i.wellFormed_iff, mod_eq_encodeNat_iff]
  exact and_congr_right fun _ => ⟨fun ⟨op, wf, ds⟩ => ⟨wf, op, ds⟩, fun ⟨wf, op, ds⟩ => ⟨op, wf, ds⟩⟩

theorem modesValue_lt (ms : List Mode) : modesValue ms < 10 ^ ms.length := by
  induction ms with
  | nil => decide
  | cons m ms ih =>
    have := m.digit_lt
    rw [modesValue, List.length_cons, pow_succ']
    omega

/-- The canonical word has no digit above the declared ones. -/
theorem Instr.encodeNat_lt (i : Instr) : i.encodeNat < 10 ^ (i.arity + 2) := by
  have := modesValue_lt i.modes
  have := i.opcode_lt
  rw [Instr.encodeNat, ← i.length_modes, add_comm i.modes.length, pow_add]
  omega

/-- Settles O2: the canonical word's own low digits are all its digits, so O3 gives the instruction back. -/
theorem decodeInvertsEncode : Obligations.DecodeInvertsEncode := by
  intro i hi
  obtain ⟨toNat, lt, -⟩ := encodeShape i
  refine (decodeReadsExactlyTheDeclaredDigits (encode i) i).2 ⟨?_, hi, ?_⟩
  · rw [BitVec.toInt_eq_toNat_of_lt (by omega)]
    exact Int.natCast_nonneg _
  · rw [toNat, Nat.mod_eq_of_lt i.encodeNat_lt]

/-! ### The faults that decode answers -/

/-- The digit of operand j is illegal: above 2, or 1 on the write target of opcode n (R84, R86). -/
def illegalDigit (w : Word) (n j : Nat) : Prop :=
  2 < modeDigit w j ∨ (modeDigit w j = 1 ∧ writeTargetTable.lookup n = some j)

/-- Of the first m operands, k is the lowest-numbered with an illegal digit (R88, D7). -/
structure FirstIllegal (w : Word) (n m k : Nat) : Prop where
  low : 1 ≤ k
  high : k ≤ m
  illegal : illegalDigit w n k
  below : ∀ j, 1 ≤ j → j < k → ¬illegalDigit w n j

/-- What a row answers as its fault, with the number of operands that the table of R98 gives it. -/
def FaultOf (w : Word) (n : Nat) (c : FaultCause) : Prop :=
  (c = .badOpcode w ∧ arityTable.lookup n = none) ∨
    ∃ m k, arityTable.lookup n = some m ∧ FirstIllegal w n m k ∧ c = .invalidParameterMode k (modeDigit w k)

theorem faultOf_of_declared {w : Word} {n m : Nat} {c : FaultCause} (h : arityTable.lookup n = some m) :
    FaultOf w n c ↔ ∃ k, FirstIllegal w n m k ∧ c = .invalidParameterMode k (modeDigit w k) := by
  simp [FaultOf, h]

theorem illegalDigit_target {w : Word} {n j : Nat} (h : writeTargetTable.lookup n = some j) :
    illegalDigit w n j ↔ 2 < modeDigit w j ∨ modeDigit w j = 1 := by
  simp [illegalDigit, h]

theorem illegalDigit_read {w : Word} {n j : Nat} (h : writeTargetTable.lookup n ≠ some j) :
    illegalDigit w n j ↔ 2 < modeDigit w j := by
  simp [illegalDigit, h]

theorem FirstIllegal.of_one {w : Word} {n m : Nat} (hm : 1 ≤ m) (h : illegalDigit w n 1) : FirstIllegal w n m 1 :=
  ⟨le_refl 1, hm, h, fun j h1 h2 => by omega⟩

theorem FirstIllegal.of_two {w : Word} {n m : Nat} (hm : 2 ≤ m) (h1 : ¬illegalDigit w n 1) (h2 : illegalDigit w n 2) :
    FirstIllegal w n m 2 := by
  refine ⟨by omega, hm, h2, fun j hj hj' => ?_⟩
  obtain rfl : j = 1 := by omega
  exact h1

theorem FirstIllegal.of_three {w : Word} {n m : Nat} (hm : 3 ≤ m) (h1 : ¬illegalDigit w n 1) (h2 : ¬illegalDigit w n 2)
    (h3 : illegalDigit w n 3) : FirstIllegal w n m 3 := by
  refine ⟨by omega, hm, h3, fun j hj hj' => ?_⟩
  obtain rfl | rfl : j = 1 ∨ j = 2 := by omega
  · exact h1
  · exact h2

theorem ReadReadWriteRow.lookup {n : Nat} {k : Mode → Mode → Mode → Instr} (h : ReadReadWriteRow n k) :
    arityTable.lookup n = some 3 ∧ writeTargetTable.lookup n = some 3 := by
  cases h <;> exact ⟨rfl, rfl⟩

theorem ReadReadRow.lookup {n : Nat} {k : Mode → Mode → Instr} (h : ReadReadRow n k) :
    arityTable.lookup n = some 2 ∧ writeTargetTable.lookup n = none := by
  cases h <;> exact ⟨rfl, rfl⟩

theorem ReadRow.lookup {n : Nat} {k : Mode → Instr} (h : ReadRow n k) :
    arityTable.lookup n = some 1 ∧ writeTargetTable.lookup n = none := by
  cases h <;> exact ⟨rfl, rfl⟩

theorem ReadReadWriteRow.error_iff {w : Word} {n : Nat} {k : Mode → Mode → Mode → Instr} (h : ReadReadWriteRow n k)
    (c : FaultCause) : decodeReadReadWrite w k = .error c ↔ FaultOf w n c := by
  obtain ⟨declared, target⟩ := h.lookup
  have first : illegalDigit w n 1 ↔ 2 < modeDigit w 1 := illegalDigit_read (by simp [target])
  have second : illegalDigit w n 2 ↔ 2 < modeDigit w 2 := illegalDigit_read (by simp [target])
  have third := illegalDigit_target (w := w) target
  rw [decodeReadReadWrite_error, faultOf_of_declared declared]
  simp only [← not_lt, ← first, ← second, ← third]
  constructor
  · rintro (⟨h1, rfl⟩ | ⟨h1, h2, rfl⟩ | ⟨h1, h2, h3, rfl⟩)
    · exact ⟨1, .of_one (by omega) h1, rfl⟩
    · exact ⟨2, .of_two (by omega) h1 h2, rfl⟩
    · exact ⟨3, .of_three (by omega) h1 h2 h3, rfl⟩
  · rintro ⟨j, ⟨low, high, illegal, below⟩, rfl⟩
    obtain rfl | rfl | rfl : j = 1 ∨ j = 2 ∨ j = 3 := by omega
    · exact .inl ⟨illegal, rfl⟩
    · exact .inr (.inl ⟨below 1 (by omega) (by omega), illegal, rfl⟩)
    · exact .inr (.inr ⟨below 1 (by omega) (by omega), below 2 (by omega) (by omega), illegal, rfl⟩)

theorem ReadReadRow.error_iff {w : Word} {n : Nat} {k : Mode → Mode → Instr} (h : ReadReadRow n k) (c : FaultCause) :
    decodeReadRead w k = .error c ↔ FaultOf w n c := by
  obtain ⟨declared, target⟩ := h.lookup
  have read : ∀ j, illegalDigit w n j ↔ 2 < modeDigit w j := fun j => illegalDigit_read (by simp [target])
  rw [decodeReadRead_error, faultOf_of_declared declared]
  simp only [← not_lt, ← read]
  constructor
  · rintro (⟨h1, rfl⟩ | ⟨h1, h2, rfl⟩)
    · exact ⟨1, .of_one (by omega) h1, rfl⟩
    · exact ⟨2, .of_two (by omega) h1 h2, rfl⟩
  · rintro ⟨j, ⟨low, high, illegal, below⟩, rfl⟩
    obtain rfl | rfl : j = 1 ∨ j = 2 := by omega
    · exact .inl ⟨illegal, rfl⟩
    · exact .inr ⟨below 1 (by omega) (by omega), illegal, rfl⟩

/-- A row with one operand. -/
theorem faultOf_one {w : Word} {n : Nat} {c : FaultCause} (h : arityTable.lookup n = some 1) :
    FaultOf w n c ↔ illegalDigit w n 1 ∧ c = .invalidParameterMode 1 (modeDigit w 1) := by
  rw [faultOf_of_declared h]
  constructor
  · rintro ⟨j, ⟨low, high, illegal, -⟩, rfl⟩
    obtain rfl : j = 1 := by omega
    exact ⟨illegal, rfl⟩
  · rintro ⟨illegal, rfl⟩
    exact ⟨1, .of_one (le_refl 1) illegal, rfl⟩

/-- A row answers exactly the fault of its lowest-numbered illegal digit; a missing row, BadOpcode. -/
theorem DecodeRow.error_iff {w : Word} {n : Nat} {r : Except FaultCause Instr} (row : DecodeRow w n r) (c : FaultCause) :
    r = .error c ↔ FaultOf w n c := by
  cases row with
  | readReadWrite h => exact h.error_iff c
  | readRead h => exact h.error_iff c
  | read h =>
    obtain ⟨declared, target⟩ := h.lookup
    rw [decodeRead_error, faultOf_one declared, illegalDigit_read (by simp [target])]
  | write => rw [decodeWrite_error, faultOf_one rfl, illegalDigit_target rfl]
  | halt =>
    rw [faultOf_of_declared rfl]
    refine ⟨nofun, ?_⟩
    rintro ⟨k, ⟨low, high, -⟩, -⟩
    omega
  | absent h => simp [FaultOf, h, eq_comm]

/-- Exactly when decode answers the fault c (R82, R87, R88, D5, D7). -/
theorem decode_error_iff {w : Word} {c : FaultCause} :
    decode w = .error c ↔ (w.toInt < 0 ∧ c = .badOpcode w) ∨ (0 ≤ w.toInt ∧ FaultOf w (opcodeOf w) c) := by
  by_cases h : 0 ≤ w.toInt
  · rw [(decode_row h).error_iff c]
    simp [h, not_lt.2 h]
  · rw [decode_of_negative (not_le.1 h)]
    simp [h, not_le.1 h, eq_comm]

/-- Settles O4: of the faults of `decode_error_iff`, those that are BadOpcode. -/
theorem badOpcodeExactlyOutsideTheTable : Obligations.BadOpcodeExactlyOutsideTheTable := by
  intro w b
  rw [decode_error_iff]
  constructor
  · rintro (⟨negative, c⟩ | ⟨-, ⟨c, absent⟩ | ⟨m, k, -, -, c⟩⟩)
    · exact ⟨FaultCause.badOpcode.inj c, .inl negative⟩
    · exact ⟨FaultCause.badOpcode.inj c, .inr absent⟩
    · cases c
  · rintro ⟨rfl, outside⟩
    by_cases h : 0 ≤ b.toInt
    · exact .inr ⟨h, .inl ⟨rfl, outside.resolve_left (not_lt.2 h)⟩⟩
    · exact .inl ⟨not_le.1 h, rfl⟩

/-- Settles O5: of the faults of `decode_error_iff`, those that are InvalidParameterMode. -/
theorem invalidModeReportsTheLowestOperand : Obligations.InvalidModeReportsTheLowestOperand := by
  intro w k d
  have legal : ∀ j, ¬illegalDigit w (opcodeOf w) j ↔
      modeDigit w j ≤ 2 ∧ ¬(modeDigit w j = 1 ∧ writeTargetTable.lookup (opcodeOf w) = some j) := by
    intro j
    rw [illegalDigit, not_or, not_lt]
  rw [decode_error_iff]
  constructor
  · rintro (⟨-, c⟩ | ⟨h, ⟨c, -⟩ | ⟨n, k', declared, ⟨low, high, illegal, below⟩, c⟩⟩)
    · cases c
    · cases c
    · cases c
      exact ⟨n, h, declared, low, high, rfl, illegal, fun j h1 h2 => (legal j).1 (below j h1 h2)⟩
  · rintro ⟨n, h, declared, low, high, rfl, illegal, below⟩
    exact .inr ⟨h, .inr ⟨n, k, declared, ⟨low, high, illegal, fun j h1 h2 => (legal j).2 (below j h1 h2)⟩, rfl⟩⟩

/-- Settles O1: each of the twelve words is read digit by digit. -/
theorem writtenWordsDecode : Obligations.WrittenWordsDecode := by
  refine ⟨?_, ?_, ?_, ?_, ?_, ?_, ?_, ?_, ?_, ?_, ?_, ?_⟩ <;> decide

end Sys2Proof
end

section
/-! PROOFS. What each instruction does when its operands resolve (42_arithmetic.md to 46_relative_base.md): the completed
state, with every address accessed gathered in one raise of hwm (R55). -/

namespace Sys2Proof.Machine

/-- An instruction that completes commits its effect (R117). -/
theorem exec_of_effect {i : Instr} {s : State} {v : VM} (h : s.vm.effect i = .ok v) : exec i s = .next (s.withVm v) := by
  rw [exec_eq_next, h, VM.conclude_ok]

section
variable {s : State} {a b d : Mode} {x y : ReadOperand} {t : WriteTarget}

/-- ADD, MUL, LT and EQ: their effect is the one two-operand function f stored at the target. -/
theorem exec_of_binary {i : Instr} {f : Word → Word → Word} (hi : s.vm.effect i = s.vm.binary f a b d)
    (hx : s.vm.resolveRead 1 a = .ok x) (hy : s.vm.resolveRead 2 b = .ok y) (ht : s.vm.resolveWrite 3 d = .ok t) :
    exec i s = .next (s.withVm { s.vm with
      mem := s.vm.mem.write t.target.toNat (f x.value y.value)
      hwm := max s.vm.hwm (max (max s.vm.pc.toInt t.target) (max (max x.top y.top) t.top))
      pc := s.vm.pc + 4 }) := by
  have accesses : max (max (max (max (max s.vm.hwm s.vm.pc.toInt) x.top) y.top) t.top) t.target =
      max s.vm.hwm (max (max s.vm.pc.toInt t.target) (max (max x.top y.top) t.top)) := by ac_rfl
  rw [exec_of_effect (hi.trans (VM.binary_eq hx hy ht)), accesses, wrap_advance]
  rfl

/-- JT and JF: their effect is a jump on the test p of the first value. -/
theorem exec_of_jump {i : Instr} {p : Word → Bool} (hi : s.vm.effect i = s.vm.jump p a b)
    (hx : s.vm.resolveRead 1 a = .ok x) (hy : s.vm.resolveRead 2 b = .ok y) :
    exec i s = .next (s.withVm { s.vm with
      hwm := max s.vm.hwm (max s.vm.pc.toInt (max x.top y.top))
      pc := if p x.value then y.value else s.vm.pc + 3 }) := by
  have accesses : max (max (max s.vm.hwm s.vm.pc.toInt) x.top) y.top =
      max s.vm.hwm (max s.vm.pc.toInt (max x.top y.top)) := by ac_rfl
  rw [exec_of_effect (hi.trans (VM.jump_eq hx hy)), accesses, wrap_advance]
  rfl

end

/-- Settles O10: `exec_of_binary` for the wrapped sum and the wrapped product. -/
theorem addMulStoreTheWrappedResult : Obligations.AddMulStoreTheWrappedResult := by
  intro s a b d x y t hx hy ht
  constructor
  · rw [exec_of_binary (f := aluSum) rfl hx hy ht, aluSum_eq]
  · rw [exec_of_binary (f := aluProduct) rfl hx hy ht, aluProduct_eq]

/-- Settles O11: `exec_of_binary` for the two comparisons, LT's signed. -/
theorem ltEqStoreOneOrZero : Obligations.LtEqStoreOneOrZero := by
  intro s a b d x y t hx hy ht
  constructor
  · rw [exec_of_binary (f := lessWord) rfl hx hy ht, lessWord_eq]
    simp only [BitVec.slt_iff_toInt_lt]
  · rw [exec_of_binary (f := equalWord) rfl hx hy ht, equalWord_eq]

/-- Settles O12: the completed IN that O13's retry is made of. -/
theorem inStoresTheHeadOfTheInput : Obligations.InStoresTheHeadOfTheInput :=
  fun _ _ _ _ _ ht hq => exec_inp_of_cons ht hq

/-- Settles O14: `VM.output_eq`, whose accesses are the fetch and the operand's. -/
theorem outAppendsTheValue : Obligations.OutAppendsTheValue := by
  intro s a x hx
  have hv : s.vm.effect (.out a) = _ := VM.output_eq hx
  rw [exec_of_effect hv, max_assoc, wrap_advance]
  rfl

/-- Settles O15: `exec_of_jump` for the tests of JT and JF. -/
theorem jumpsTakeTheSecondOperand : Obligations.JumpsTakeTheSecondOperand := by
  intro s c t x y hx hy
  constructor
  · rw [exec_of_jump (p := wordTrue) rfl hx hy]
    simp only [wordTrue, decide_eq_true_eq]
  · rw [exec_of_jump (p := wordFalse) rfl hx hy]
    simp only [wordFalse, decide_eq_true_eq]

/-- Settles O16: `VM.adjustBase_eq`, its sum wrapped. -/
theorem arbAddsToTheBase : Obligations.ArbAddsToTheBase := by
  intro s a x hx
  have hv : s.vm.effect (.arb a) = _ := VM.adjustBase_eq hx
  rw [exec_of_effect hv, max_assoc, wrap_advance, aluSum_eq]
  rfl

/-- R189: a halted instance without a fault reports Halted. -/
theorem VM.status_halted {v : VM} (hf : v.fault = none) (hr : v.runState = .halted) : v.status = .halted := by
  simp only [VM.status, hf, hr]

/-- Settles O17: HALT always completes, and the halted instance has no further step, so its run() returns. -/
theorem haltStopsInPlace : Obligations.HaltStopsInPlace := by
  intro s
  let halted := s.withVm { s.vm with hwm := max s.vm.hwm s.vm.pc.toInt, runState := .halted }
  have halts : exec .halt s = .next halted := rfl
  refine ⟨halts, fun ha hf => ⟨halted, halted.endRun, halts, ?_, rfl, ?_, rfl, rfl⟩⟩
  · exact step_run_return ha fun guard => by cases guard.2.1
  · have status : halted.vm.status = .halted := VM.status_halted hf rfl
    rw [State.endRun, status]
    rfl

/-- Settles O30: the ADD of O10, then the read of the cell it wrote. -/
theorem storeIsSeenByTheNextFetch : Obligations.StoreIsSeenByTheNextFetch := by
  intro s t a b d x y r canonical hx hy hr executed p hp
  rw [(addMulStoreTheWrappedResult s a b d x y r hx hy hr).1] at executed
  cases executed
  have legal := (VM.resolveWrite_range hr).1
  refine VM.fetch_ok.2 ⟨hp ▸ legal.1, ?_⟩
  dsimp only [State.vm_withVm]
  rw [hp, Memory.read_write_same _ canonical]

/-- Settles O8: rb + p is p when rb is 0. -/
theorem positionEqualsRelativeAtBaseZero : Obligations.PositionEqualsRelativeAtBaseZero := by
  intro v i hb
  have sum : ∀ p : Word, v.rb.toInt + p.toInt = p.toInt := by simp [hb]
  simp only [VM.resolveWrite, VM.resolveRead, sum, and_self]

end Sys2Proof.Machine
end

section
/-! PROOFS. What an instruction leaves unchanged (10_state.md R35), whatever its outcome, and where pc is after it
(45_control.md R175). -/

namespace Sys2Proof.Machine

/-- The three outcomes of an instruction, committed (R117): it raises, IN suspends, or it completes. -/
theorem VM.conclude_effect_cases (v : VM) (i : Instr) :
    (∃ c, v.effect i = .error (.raise c) ∧ v.conclude (v.effect i) = v.takeFault c) ∨
      (∃ d, i = .inp d ∧ v.inq = [] ∧ v.conclude (v.effect i) = v.suspend) ∨
      (∃ v', v.effect i = .ok v' ∧ v.conclude (v.effect i) = v') := by
  rcases h : v.effect i with (c | _) | v'
  · exact .inl ⟨c, rfl, rfl⟩
  · obtain ⟨d, hd, hq⟩ := VM.effect_suspend h
    exact .inr (.inl ⟨d, hd, hq, rfl⟩)
  · exact .inr (.inr ⟨v', rfl, rfl⟩)

/-- An instruction changes nothing outside the instance in focus (R33). -/
theorem exec_frame {i : Instr} {s t : State} (h : exec i s = .next t) :
    t = s.withVm t.vm ∧ t.vm = s.vm.conclude (s.vm.effect i) := by
  obtain rfl := exec_next_iff.1 h
  exact ⟨rfl, rfl⟩

/-- Every instruction but HALT keeps run_state when it completes (R25). -/
theorem VM.effect_ok_runState {v v' : VM} {i : Instr} (h : v.effect i = .ok v') (hi : i ≠ .halt) :
    v'.runState = v.runState := by
  obtain ⟨-, -, -, -, -, ⟨halt, -⟩ | ⟨-, kept⟩, -⟩ := VM.effect_ok_frame h
  · exact absurd halt hi
  · exact kept

/-- The memory after an instruction: as before, or, if it completes and has a write target, written there and nowhere
else (R53). -/
theorem VM.conclude_effect_mem (v : VM) (i : Instr) :
    (v.conclude (v.effect i)).mem = v.mem ∨
      ∃ d t x v', i.writeMode = some d ∧ v.resolveWrite i.arity d = .ok t ∧ v.effect i = .ok v' ∧
        (v.conclude (v.effect i)).mem = v.mem.write t.target.toNat x := by
  rcases v.conclude_effect_cases i with ⟨c, -, h⟩ | ⟨d, -, -, h⟩ | ⟨v', he, h⟩
  · exact .inl (by rw [h, VM.takeFault_mem])
  · exact .inl (by rw [h, VM.suspend_mem])
  · obtain ⟨-, -, -, -, -, -, kept | ⟨d, t, x, hd, ht, written⟩⟩ := VM.effect_ok_frame he
    · exact .inl (by rw [h, kept])
    · exact .inr ⟨d, t, x, v', hd, ht, he, by rw [h, written]⟩

/-- Every cell but the target's reads as before, and every cell if the target does not resolve. -/
theorem VM.conclude_effect_read {v : VM} {i : Instr} {d : Mode} (hd : i.writeMode = some d) {a : Nat}
    (ha : ∀ r, v.resolveWrite i.arity d = .ok r → a ≠ r.target.toNat) :
    (v.conclude (v.effect i)).mem.read a = v.mem.read a := by
  rcases v.conclude_effect_mem i with kept | ⟨d', t, x, -, hd', ht, -, written⟩
  · rw [kept]
  · obtain rfl := Option.some.inj (hd.symm.trans hd')
    rw [written, Memory.read_write_other _ _ (ha t ht)]

/-- Settles O19: the outcomes one by one; what a completed instruction keeps is `VM.effect_ok_frame`. -/
theorem storingInstructionsFrame : Obligations.StoringInstructionsFrame := by
  intro i d s t hd executed
  obtain ⟨frame, ht⟩ := exec_frame executed
  have notHalt : i ≠ .halt := by rintro rfl; cases hd
  have notOut : ¬∃ a, i = .out a := by rintro ⟨a, rfl⟩; cases hd
  have notArb : ¬∃ a, i = .arb a := by rintro ⟨a, rfl⟩; cases hd
  have registers : t.vm.rb = s.vm.rb ∧ t.vm.outq = s.vm.outq ∧
      ((∀ m, i ≠ .inp m) → t.vm.inq = s.vm.inq ∧ t.vm.runState = s.vm.runState) ∧
      (t.vm.fault ≠ s.vm.fault ∨ t.vm.runState ≠ s.vm.runState → t.vm.mem = s.vm.mem) := by
    rw [ht]
    rcases s.vm.conclude_effect_cases i with ⟨c, -, h⟩ | ⟨d, hi, -, h⟩ | ⟨v', he, h⟩
    · rw [h]; exact ⟨rfl, rfl, fun _ => ⟨rfl, rfl⟩, fun _ => rfl⟩
    · rw [h]; exact ⟨rfl, rfl, fun notIn => absurd hi (notIn d), fun _ => rfl⟩
    · obtain ⟨fault, -, inq, outq, rb, -, -⟩ := VM.effect_ok_frame he
      have runState := VM.effect_ok_runState he notHalt
      rw [h]
      refine ⟨rb.resolve_left notArb, outq.resolve_left notOut, fun notIn => ⟨inq.resolve_left ?_, runState⟩, ?_⟩
      · rintro ⟨m, hm⟩
        exact notIn m hm
      · rintro (changed | changed)
        · exact absurd fault changed
        · exact absurd runState changed
  obtain ⟨rb, outq, queues, aborted⟩ := registers
  refine ⟨frame, rb, outq, queues, fun r hr a ha => ?_, fun unresolved a => ?_, fun changed a => by rw [aborted changed]⟩
  · rw [ht]
    refine VM.conclude_effect_read hd fun r' hr' => ?_
    cases hr.symm.trans hr'
    exact ha
  · rw [ht]
    exact VM.conclude_effect_read hd fun r hr => absurd hr (unresolved r)

/-- Settles O20: the outcomes one by one; only IN suspends, and IN stores. -/
theorem nonStoringInstructionsFrame : Obligations.NonStoringInstructionsFrame := by
  intro i s t hd executed
  obtain ⟨frame, ht⟩ := exec_frame executed
  have notIn : ¬∃ m, i = .inp m := by rintro ⟨m, rfl⟩; cases hd
  have mem : t.vm.mem = s.vm.mem := by
    rw [ht]
    rcases s.vm.conclude_effect_mem i with kept | ⟨d, -, -, -, hd', -⟩
    · exact kept
    · cases hd.symm.trans hd'
  refine ⟨frame, fun a => by rw [mem], ?_⟩
  rw [ht]
  rcases s.vm.conclude_effect_cases i with ⟨c, -, h⟩ | ⟨d, hi, -, -⟩ | ⟨v', he, h⟩
  · rw [h]; exact ⟨rfl, fun _ => rfl, fun _ => rfl, fun _ => rfl⟩
  · exact absurd ⟨d, hi⟩ notIn
  · obtain ⟨-, -, inq, outq, rb, -, -⟩ := VM.effect_ok_frame he
    rw [h]
    exact ⟨inq.resolve_left notIn, fun notOut => outq.resolve_left fun ⟨m, hm⟩ => notOut m hm,
      fun notArb => rb.resolve_left fun ⟨m, hm⟩ => notArb m hm, VM.effect_ok_runState he⟩

/-- Settles O9: the target is `VM.resolveWrite_ok`'s sum, which is not negative; every cell but it is kept. -/
theorem relativeStoreLandsAtBasePlusOffset : Obligations.RelativeStoreLandsAtBasePlusOffset := by
  intro i s t k hd executed hk
  have target : ∀ r, s.vm.resolveWrite i.arity .relative = .ok r → r.target = s.vm.rb.toInt + k.toInt := by
    intro r hr
    obtain ⟨p, -, hp, ⟨relative, -⟩ | ⟨-, -, rfl⟩⟩ := VM.resolveWrite_ok hr
    · cases relative
    · rw [← hk, ← hp]
      rfl
  refine ⟨target, fun b hb => ?_⟩
  rw [(exec_frame executed).2]
  refine VM.conclude_effect_read hd fun r hr hbr => hb ?_
  rw [← target r hr, hbr, Int.toNat_of_nonneg (VM.resolveWrite_range hr).1.1]

/-! ### The program counter -/

/-- A jump, JT or JF. -/
def isJump (i : Instr) : Prop := ∃ c m, i = .jt c m ∨ i = .jf c m

/-- R116: an instruction that is no jump and not HALT goes on behind its operands. -/
theorem VM.effect_ok_pc {v v' : VM} {i : Instr} (h : v.effect i = .ok v') (hh : i ≠ .halt) (hj : ¬isJump i) :
    v'.pc = v.pc + BitVec.ofNat 64 (1 + i.arity) := by
  have binary : ∀ {f a b d}, v.binary f a b d = .ok v' → v'.pc = v.pc + BitVec.ofNat 64 (1 + 3) := by
    intro f a b d hb
    obtain ⟨x, y, t, -, -, -, rfl⟩ := VM.binary_ok hb
    exact wrap_advance _ _
  cases i with
  | add a b d => exact binary h
  | mul a b d => exact binary h
  | lt a b d => exact binary h
  | eq a b d => exact binary h
  | inp d =>
    obtain ⟨t, x, xs, -, -, rfl⟩ := VM.input_ok h
    exact wrap_advance _ _
  | out a =>
    obtain ⟨x, -, rfl⟩ := VM.output_ok h
    exact wrap_advance _ _
  | arb a =>
    obtain ⟨x, -, rfl⟩ := VM.adjustBase_ok h
    exact wrap_advance _ _
  | jt c m => exact absurd ⟨c, m, .inl rfl⟩ hj
  | jf c m => exact absurd ⟨c, m, .inr rfl⟩ hj
  | halt => exact absurd rfl hh

/-- A jump that completes: pc is the second value if the test of the first holds, else behind the operands (R170, R171). -/
theorem VM.jump_ok_pc {v v' : VM} {p : Word → Bool} {c m : Mode} (h : v.jump p c m = .ok v') :
    ∃ x y, v.resolveRead 1 c = .ok x ∧ v.resolveRead 2 m = .ok y ∧
      ((p x.value = true ∧ v'.pc = y.value) ∨ (p x.value = false ∧ v'.pc = v.pc + BitVec.ofNat 64 (1 + 2))) := by
  obtain ⟨x, y, hx, hy, rfl⟩ := VM.jump_ok h
  refine ⟨x, y, hx, hy, ?_⟩
  cases hp : p x.value with
  | true => exact .inl ⟨rfl, by simp⟩
  | false => exact .inr ⟨rfl, wrap_advance _ _⟩

/-- An instruction after which no fault is latched and the instance does not wait has completed. -/
theorem VM.completed {v : VM} {i : Instr} (hf : (v.conclude (v.effect i)).fault = none)
    (hr : (v.conclude (v.effect i)).runState ≠ .waitingForInput) :
    v.effect i = .ok (v.conclude (v.effect i)) := by
  rcases v.conclude_effect_cases i with ⟨c, -, h⟩ | ⟨d, -, -, h⟩ | ⟨v', he, h⟩
  · rw [h] at hf
    cases hf
  · rw [h] at hr
    exact absurd rfl hr
  · rw [h, he]

/-- Settles O18: HALT, JT, JF and the rest apart. -/
theorem sequentialSuccessor : Obligations.SequentialSuccessor := by
  intro i s t _ _ executed hf hr
  rw [(exec_frame executed).2] at hf hr ⊢
  have completed := VM.completed hf hr
  generalize s.vm.conclude (s.vm.effect i) = v' at completed ⊢
  by_cases hh : i = .halt
  · subst hh
    cases completed
    exact .inl ⟨rfl, rfl⟩
  by_cases hj : isJump i
  · obtain ⟨c, m, rfl | rfl⟩ := hj
    · obtain ⟨x, y, hx, hy, ⟨taken, pc⟩ | ⟨passed, pc⟩⟩ := VM.jump_ok_pc completed
      · exact .inr (.inr ⟨c, m, x, y, hx, hy, pc, .inl ⟨rfl, by simpa [wordTrue] using taken⟩⟩)
      · refine .inr (.inl ⟨hh, pc, fun c' m' x' hx' => ⟨?_, nofun⟩⟩)
        rintro ⟨same, hne⟩
        cases same
        cases hx.symm.trans hx'
        exact hne (by simpa [wordTrue] using passed)
    · obtain ⟨x, y, hx, hy, ⟨taken, pc⟩ | ⟨passed, pc⟩⟩ := VM.jump_ok_pc completed
      · exact .inr (.inr ⟨c, m, x, y, hx, hy, pc, .inr ⟨rfl, by simpa [wordFalse] using taken⟩⟩)
      · refine .inr (.inl ⟨hh, pc, fun c' m' x' hx' => ⟨nofun, ?_⟩⟩)
        rintro ⟨same, heq⟩
        cases same
        cases hx.symm.trans hx'
        exact absurd heq (by simpa [wordFalse] using passed)
  · refine .inr (.inl ⟨hh, VM.effect_ok_pc completed hh hj, fun c m x _ => ⟨fun hi => ?_, fun hi => ?_⟩⟩)
    · exact hj ⟨c, m, .inl hi.1⟩
    · exact hj ⟨c, m, .inr hi.1⟩

end Sys2Proof.Machine
end

section
/-! PROOFS. The pipeline and its faults (40_pipeline.md, 60_exceptions.md): a step commits the outcome of the instruction
at pc, and the faults come in the order of R247. -/

namespace Sys2Proof.Machine

/-! ### Fetch and decode -/

/-- The word at pc that the fault record holds (R246). -/
theorem VM.wordAtPc_eq (v : VM) :
    v.wordAtPc = if 0 ≤ v.pc.toInt then some (v.mem.read v.pc.toInt.toNat) else none := by
  simp only [VM.wordAtPc, legalAddress_word_iff]

/-- A step that raises writes the record of R246 to the latch and nothing else. -/
theorem step_of_raise {s : State} {c : FaultCause} (h : s.engineHasStep) (hc : s.vm.stepEffect = .error (.raise c)) :
    step s = .next (s.withVm { s.vm with fault := some { cause := c, pc := s.vm.pc, word := s.vm.wordAtPc } }) := by
  rw [step_of_engineHasStep h, hc, VM.conclude_raise]
  rfl

/-- A step whose word at pc decodes to i is i's execution (R120). -/
theorem VM.stepEffect_of_decode {v : VM} {w : Word} {i : Instr} (hw : v.fetch = .ok w) (hi : decode w = .ok i) :
    v.stepEffect = v.effect i := by
  simp only [VM.stepEffect, hw, hi]

theorem VM.stepEffect_of_decode_error {v : VM} {w : Word} {c : FaultCause} (hw : v.fetch = .ok w)
    (hc : decode w = .error c) : v.stepEffect = .error (.raise c) := by
  simp only [VM.stepEffect, hw, hc]

theorem VM.stepEffect_of_fetch_error {v : VM} {e : Abort} (he : v.fetch = .error e) : v.stepEffect = .error e := by
  simp only [VM.stepEffect, he]

/-- Settles O24: both sides commit the same effect. -/
theorem stepRunsTheDecodedInstruction : Obligations.StepRunsTheDecodedInstruction := by
  intro s i h hpc hi
  rw [step_of_engineHasStep h, exec_eq_next, VM.stepEffect_of_decode (VM.fetch_ok.2 ⟨hpc, rfl⟩) hi]

/-- Settles O25: the sign of pc says whether the fetch raises, and with it whether the record holds a word. -/
theorem fetchAndDecodeFaultsComeFirst : Obligations.FetchAndDecodeFaultsComeFirst := by
  intro s h
  constructor
  · intro negative
    have raised := VM.stepEffect_of_fetch_error (VM.fetch_error.2 ⟨negative, rfl⟩)
    rw [step_of_raise h raised, VM.wordAtPc_eq, if_neg (not_le.2 negative)]
  · intro c hpc hc
    have raised := VM.stepEffect_of_decode_error (VM.fetch_ok.2 ⟨hpc, rfl⟩) hc
    rw [step_of_raise h raised, VM.wordAtPc_eq, if_pos hpc]

/-! ### The operands in order -/

section
variable {v : VM} {i : Instr}

/-- Operands read, read, write: resolving them in order stops where the instruction does. -/
theorem VM.checkOperands_binary (f : Word → Word → Word) (a b d : Mode)
    (h : writeTargetTable.lookup i.opcode = some 3) :
    v.checkOperands i 1 [a, b, d] = (v.binary f a b d).map (fun _ => ()) := by
  simp only [VM.checkOperands, VM.checkOperand, h, VM.binary]
  cases v.resolveRead 1 a with
  | error e => rfl
  | ok x =>
    cases v.resolveRead 2 b with
    | error e => rfl
    | ok y =>
      cases v.resolveWrite 3 d with
      | error e => rfl
      | ok t => rfl

/-- Operands read, read. -/
theorem VM.checkOperands_jump (p : Word → Bool) (c m : Mode) (h : writeTargetTable.lookup i.opcode = none) :
    v.checkOperands i 1 [c, m] = (v.jump p c m).map (fun _ => ()) := by
  simp only [VM.checkOperands, VM.checkOperand, h, VM.jump]
  cases v.resolveRead 1 c with
  | error e => rfl
  | ok x =>
    cases v.resolveRead 2 m with
    | error e => rfl
    | ok y => rfl

/-- OUT's operand. -/
theorem VM.checkOperands_output (a : Mode) (h : writeTargetTable.lookup i.opcode = none) :
    v.checkOperands i 1 [a] = (v.output a).map (fun _ => ()) := by
  simp only [VM.checkOperands, VM.checkOperand, h, VM.output]
  cases v.resolveRead 1 a with
  | error e => rfl
  | ok x => rfl

/-- ARB's operand. -/
theorem VM.checkOperands_adjustBase (a : Mode) (h : writeTargetTable.lookup i.opcode = none) :
    v.checkOperands i 1 [a] = (v.adjustBase a).map (fun _ => ()) := by
  simp only [VM.checkOperands, VM.checkOperand, h, VM.adjustBase]
  cases v.resolveRead 1 a with
  | error e => rfl
  | ok x => rfl

/-- IN's target. -/
theorem VM.checkOperands_target (d : Mode) (h : writeTargetTable.lookup i.opcode = some 1) :
    v.checkOperands i 1 [d] = (v.resolveWrite 1 d).map (fun _ => ()) := by
  simp only [VM.checkOperands, VM.checkOperand, h]
  cases v.resolveWrite 1 d with
  | error e => rfl
  | ok t => rfl

end

theorem except_map_error {α β ε : Type} {x : Except ε α} {f : α → β} {e : ε} : x.map f = .error e ↔ x = .error e := by
  cases x <;> simp [Except.map]

/-- An instruction raises exactly what resolving its operands in order raises (R114, R247): IN's queue is tested after. -/
theorem VM.checkOperands_raise_iff (v : VM) (i : Instr) (c : FaultCause) :
    v.checkOperands i 1 i.modes = .error (.raise c) ↔ v.effect i = .error (.raise c) := by
  have binary : ∀ (f : Word → Word → Word) (a b d : Mode), writeTargetTable.lookup i.opcode = some 3 →
      (v.checkOperands i 1 [a, b, d] = .error (.raise c) ↔ v.binary f a b d = .error (.raise c)) := by
    intro f a b d h
    rw [VM.checkOperands_binary f a b d h, except_map_error]
  have jump : ∀ (p : Word → Bool) (k m : Mode), writeTargetTable.lookup i.opcode = none →
      (v.checkOperands i 1 [k, m] = .error (.raise c) ↔ v.jump p k m = .error (.raise c)) := by
    intro p k m h
    rw [VM.checkOperands_jump p k m h, except_map_error]
  cases i with
  | add a b d => exact binary aluSum a b d rfl
  | mul a b d => exact binary aluProduct a b d rfl
  | lt a b d => exact binary lessWord a b d rfl
  | eq a b d => exact binary equalWord a b d rfl
  | jt k m => exact jump wordTrue k m rfl
  | jf k m => exact jump wordFalse k m rfl
  | inp d =>
    have check := v.checkOperands_target (i := .inp d) d rfl
    exact (check ▸ except_map_error).trans VM.input_raise.symm
  | out a =>
    have check := v.checkOperands_output (i := .out a) a rfl
    exact check ▸ except_map_error
  | arb a =>
    have check := v.checkOperands_adjustBase (i := .arb a) a rfl
    exact check ▸ except_map_error
  | halt => exact ⟨nofun, nofun⟩

/-- Settles O26: `VM.checkOperands_raise_iff`; an instruction that does not raise keeps the latch. -/
theorem firstBadOperandIsTheFault : Obligations.FirstBadOperandIsTheFault := by
  intro i s
  constructor
  · intro c hc
    rw [exec_eq_next, (s.vm.checkOperands_raise_iff i c).1 hc, VM.conclude_raise, VM.takeFault, VM.wordAtPc_eq]
  · intro resolved t executed
    rw [(exec_frame executed).2]
    rcases s.vm.conclude_effect_cases i with ⟨c, raised, -⟩ | ⟨d, -, -, h⟩ | ⟨v', he, h⟩
    · cases resolved.symm.trans ((s.vm.checkOperands_raise_iff i c).2 raised)
    · rw [h, VM.suspend_fault]
    · rw [h, (VM.effect_ok_frame he).1]

/-! ### The outcomes of a step of the engine -/

/-- A step of the engine changes nothing outside the instance in focus (R33). -/
theorem engineStep_frame {s t : State} (h : s.engineHasStep) (ht : step s = .next t) :
    t = s.withVm t.vm ∧ t.vm = s.vm.conclude s.vm.stepEffect := by
  cases (step_of_engineHasStep h).symm.trans ht
  exact ⟨rfl, rfl⟩

/-- Settles O27: of the three outcomes only the raise latches a fault, for the latch was clear. -/
theorem faultsArePrecise : Obligations.FaultsArePrecise := by
  intro s t r h ht hr
  obtain ⟨frame, vm⟩ := engineStep_frame h ht
  have clear : s.vm.fault = none := h.2.1
  have raised : t.vm = { s.vm with fault := some r } ∧ r.pc = s.vm.pc := by
    rw [vm] at hr ⊢
    rcases s.vm.conclude_stepEffect_cases with ⟨c, h⟩ | ⟨h, -⟩ | ⟨v', w, i, h, -, -, he⟩
    · rw [h] at hr ⊢
      cases hr
      exact ⟨rfl, rfl⟩
    · rw [h, VM.suspend_fault, clear] at hr
      cases hr
    · rw [h, (VM.effect_ok_frame he).1, clear] at hr
      cases hr
  refine ⟨raised.1 ▸ frame, raised.2, fun guard => ?_⟩
  cases hr.symm.trans guard.1

/-- Settles O28: the outcomes of `VM.conclude_stepEffect_cases`, HALT apart from what goes on. -/
theorem stepOutcomes : Obligations.StepOutcomes := by
  intro s h
  refine ⟨_, step_of_engineHasStep h, rfl, ?_⟩
  rw [State.vm_withVm]
  obtain ⟨-, clear, running, -⟩ := h
  rcases s.vm.conclude_stepEffect_cases with ⟨c, h⟩ | ⟨h, hq, fetched⟩ | ⟨v', w, i, h, hw, hi, he⟩
  · exact .inl ⟨_, h⟩
  · exact .inr (.inl ⟨h, hq, fetched⟩)
  · obtain ⟨fault, hwm, -, -, -, ⟨rfl, halted, pc⟩ | ⟨-, kept⟩, -⟩ := VM.effect_ok_frame he
    · rw [h]
      exact .inr (.inr (.inl ⟨fault.trans clear, halted, pc, w, hw, hi⟩))
    · rw [h]
      exact .inr (.inr (.inr ⟨fault.trans clear, kept.trans running, hwm⟩))

/-- Settles O46: a step of the engine is a function of the instance in focus (`engineStep_frame`). -/
theorem engineSeesOnlyItsOwnInstance : Obligations.EngineSeesOnlyItsOwnInstance := by
  refine ⟨fun s t h ht => (engineStep_frame h ht).1, fun s s' t t' h h' same ht ht' => ?_⟩
  rw [(engineStep_frame h ht).2, (engineStep_frame h' ht').2, same]

end Sys2Proof.Machine
end

section
/-! PROOFS. What any step and any transaction can do to one field of an instance (10_state.md R25 to R27, R35, R277): the
cases of `step_slot` and `transact_slot`, field by field. -/

namespace Sys2Proof.Machine

/-! ### Fields that the sentinel leaves -/

@[simp] theorem VM.feedSentinel_hwm (v : VM) : v.feedSentinel.hwm = v.hwm := by
  unfold VM.feedSentinel
  split <;> rfl

@[simp] theorem VM.feedSentinel_fault (v : VM) : v.feedSentinel.fault = v.fault := by
  unfold VM.feedSentinel
  split <;> rfl

@[simp] theorem VM.feedSentinel_runState (v : VM) : v.feedSentinel.runState = v.runState := by
  unfold VM.feedSentinel
  split <;> rfl

theorem VM.feedSentinel_inq (v : VM) : v.feedSentinel.inq = if v.inq = [] then [Config.sentinel] else v.inq := by
  unfold VM.feedSentinel
  split
  · next h => rw [VM.enqueueInput_inq, h, List.nil_append]
  · rfl

/-- The entry of run() changes run_state from WaitingForInput to Running or not at all (R191). -/
theorem VM.resume_runState (v : VM) :
    v.resume.runState = v.runState ∨ (v.runState = .waitingForInput ∧ v.resume.runState = .running) := by
  rcases v.resume_cases with ⟨-, waits, h⟩ | ⟨-, h⟩
  · exact .inr ⟨waits, by rw [h]⟩
  · exact .inl (by rw [h])

/-! ### One step of an engine -/

theorem VM.conclude_stepEffect_hwm (v : VM) : v.hwm ≤ (v.conclude v.stepEffect).hwm := by
  rcases v.conclude_stepEffect_cases with ⟨c, h⟩ | ⟨h, -⟩ | ⟨v', w, i, h, -, -, he⟩
  · rw [h, VM.takeFault_hwm]
  · rw [h, VM.suspend_hwm]
  · rw [h]
    exact (VM.effect_ok_frame he).2.1

theorem VM.conclude_stepEffect_runState (v : VM) :
    (v.conclude v.stepEffect).runState = v.runState ∨
      (v.inq = [] ∧ v.conclude v.stepEffect = v.suspend ∧ ∃ w d, v.fetch = .ok w ∧ decode w = .ok (.inp d)) ∨
      ((v.conclude v.stepEffect).runState = .halted ∧ ∃ w, v.fetch = .ok w ∧ decode w = .ok .halt) := by
  rcases v.conclude_stepEffect_cases with ⟨c, h⟩ | ⟨h, hq, fetched⟩ | ⟨v', w, i, h, hw, hi, he⟩
  · exact .inl (by rw [h, VM.takeFault_runState])
  · exact .inr (.inl ⟨hq, h, fetched⟩)
  · obtain ⟨-, -, -, -, -, ⟨rfl, halted, -⟩ | ⟨-, kept⟩, -⟩ := VM.effect_ok_frame he
    · exact .inr (.inr ⟨by rw [h, halted], w, hw, hi⟩)
    · exact .inl (by rw [h, kept])

/-- Of the instructions only IN takes from the input FIFO, and it takes the head (R160). -/
theorem VM.conclude_stepEffect_inq (v : VM) :
    (v.conclude v.stepEffect).inq = v.inq ∨ ∃ x, v.inq = x :: (v.conclude v.stepEffect).inq := by
  rcases v.conclude_stepEffect_cases with ⟨c, h⟩ | ⟨h, -⟩ | ⟨v', w, i, h, -, -, he⟩
  · exact .inl (by rw [h, VM.takeFault_inq])
  · exact .inl (by rw [h, VM.suspend_inq])
  · rw [h]
    obtain ⟨-, -, ⟨d, rfl⟩ | kept, -⟩ := VM.effect_ok_frame he
    · obtain ⟨t, x, xs, -, hq, rfl⟩ := VM.input_ok he
      exact .inr ⟨x, hq⟩
    · exact .inl kept

/-! ### Every step -/

/-- Settles O23: no case of `step_slot` lowers hwm, and of `transact_slot` load alone can. -/
theorem highWaterMarkNeverFalls : Obligations.HighWaterMarkNeverFalls := by
  refine ⟨fun s t j q q' h hq hq' => ?_, fun c s t j q q' h hq hq' falls => ?_⟩
  · rcases step_slot h hq hq' with same | drained | ⟨-, -, -, engine⟩ | ⟨-, -, -, begun⟩ | ⟨-, delivered⟩
    · rw [same]
    · rw [drained, VM.drain_hwm]
    · exact engine ▸ q.vm.conclude_stepEffect_hwm
    · rw [begun, VM.resume_hwm, VM.feedSentinel_hwm]
    · rw [delivered]
  · rcases transact_slot h hq hq' with netInit | ⟨-, -, same | ⟨image, pc0, rb0, load, -⟩ | ⟨v, -, fed⟩ | ⟨-, resumed⟩ |
      ⟨a, v, -, -, poked⟩⟩
    · exact .inr netInit
    · exact absurd falls (by rw [same]; exact lt_irrefl _)
    · exact .inl ⟨image, pc0, rb0, load⟩
    · exact absurd falls (by rw [fed]; exact lt_irrefl _)
    · exact absurd falls (by rw [resumed, VM.resume_hwm]; exact lt_irrefl _)
    · exact absurd falls (by rw [poked, VM.store_hwm]; exact not_lt.2 (le_max_left _ _))

/-- Settles O29: an engine whose latch is set has no step, and the other cases keep the latch. -/
theorem onlyLoadClearsAFault : Obligations.OnlyLoadClearsAFault := by
  refine ⟨fun s t j q q' h hq hq' latched => ?_, fun c s t j q q' h hq hq' _ changed => ?_⟩
  · rcases step_slot h hq hq' with same | drained | ⟨-, guard, rfl, -⟩ | ⟨-, -, -, begun⟩ | ⟨-, delivered⟩
    · rw [same]
    · rw [drained, VM.drain_fault]
    · exact absurd guard.2.1 latched
    · rw [begun, VM.resume_fault, VM.feedSentinel_fault]
    · rw [delivered]
  · rcases transact_slot h hq hq' with netInit | ⟨-, -, same | ⟨image, pc0, rb0, load, -⟩ | ⟨v, -, fed⟩ | ⟨-, resumed⟩ |
      ⟨a, v, -, -, poked⟩⟩
    · exact .inr netInit
    · exact absurd (by rw [same]) changed
    · exact .inl ⟨image, pc0, rb0, load⟩
    · exact absurd (by rw [fed, VM.enqueueInput_fault]) changed
    · exact absurd (by rw [resumed, VM.resume_fault]) changed
    · exact absurd (by rw [poked, VM.store_fault]) changed

theorem transact_netInit {s t : State} {n : Nat} {image : List Int} (h : transact (.netInit n image) s = .next t) :
    s.netInit n image = .next t := by
  simpa only [transact, transact_idle h] using h

/-- Settles O22: run_state changes in the engine's suspend and HALT, in the entry of run(), and in load. -/
theorem runStateTransitions : Obligations.RunStateTransitions := by
  refine ⟨fun s t j q q' h hq hq' changed => ?_, fun c s t j q q' h hq hq' changed => ?_⟩
  · rcases step_slot h hq hq' with same | drained | ⟨hj, guard, -, engine⟩ | ⟨hj, turn, -, begun⟩ | ⟨-, delivered⟩
    · exact absurd (by rw [same]) changed
    · exact absurd (by rw [drained, VM.drain_runState]) changed
    · refine ⟨hj, ?_⟩
      rw [engine] at changed ⊢
      rcases q.vm.conclude_stepEffect_runState with kept | ⟨hq, suspended, fetched⟩ | halted
      · exact absurd kept changed
      · exact .inl ⟨guard, hq, suspended, fetched⟩
      · exact .inr (.inl ⟨guard, halted⟩)
    · refine ⟨hj, .inr (.inr ⟨turn, ?_⟩)⟩
      rw [begun, ← q.vm.feedSentinel_runState] at changed
      rw [begun, ← q.vm.feedSentinel_runState]
      exact (VM.resume_runState _).resolve_left changed
    · exact absurd (by rw [delivered]) changed
  · rcases transact_slot h hq hq' with netInit | ⟨-, -, same | ⟨image, pc0, rb0, load, -, loaded⟩ | ⟨v, -, fed⟩ |
      ⟨run, resumed⟩ | ⟨a, v, -, -, poked⟩⟩
    · obtain ⟨n, image, rfl⟩ := netInit
      refine ⟨?_, .inr (.inl ⟨n, image, rfl⟩)⟩
      rcases State.netInit_cases (transact_netInit h) with ⟨-, slots, -⟩ | rfl
      · obtain ⟨i, rfl⟩ := mem_netSlots (slots ▸ List.mem_of_getElem? hq')
        rfl
      · cases hq.symm.trans hq'
        exact absurd rfl changed
    · exact absurd (by rw [same]) changed
    · exact ⟨by rw [loaded]; rfl, .inl ⟨image, pc0, rb0, load⟩⟩
    · exact absurd (by rw [fed, VM.enqueueInput_runState]) changed
    · rw [resumed] at changed ⊢
      obtain ⟨waits, running⟩ := (VM.resume_runState _).resolve_left changed
      exact ⟨running, .inr (.inr ⟨run, waits⟩)⟩
    · exact absurd (by rw [poked, VM.store_runState]) changed

/-- Settles O47: of the cases of `step_slot` but the boundary, an IN takes the head and the sentinel is fed. -/
theorem packetsArriveOnlyAtTheBoundary : Obligations.PacketsArriveOnlyAtTheBoundary := by
  intro s t j q q' h notBoundary hq hq'
  rcases step_slot h hq hq' with same | drained | ⟨hj, -, -, engine⟩ | ⟨hj, -, -, begun⟩ | ⟨⟨c, boundary⟩, -⟩
  · exact .inl (by rw [same])
  · exact .inl (by rw [drained, VM.drain_inq])
  · rw [engine]
    rcases q.vm.conclude_stepEffect_inq with kept | taken
    · exact .inl kept
    · exact .inr ⟨hj, .inl taken⟩
  · rw [begun, VM.resume_inq, VM.feedSentinel_inq]
    split
    · next empty => exact .inr ⟨hj, .inr ⟨empty, rfl⟩⟩
    · exact .inl rfl
  · exact absurd boundary (notBoundary c)

end Sys2Proof.Machine
end

section
/-! PROOFS. The host's transactions on an instance (47_vm_instance.md): what they do place by place, from the focus on the
instance (`State.focus_eq`) and the one replacement of its state. -/

namespace Sys2Proof.Machine

section
variable {s u : State} {i : Nat}

/-- Every place can be focused. -/
theorem State.exists_focus {q : Slot} (h : s.slots[i]? = some q) : ∃ u, s.focus i = some u ∧ u.slot = q := by
  obtain ⟨l, r, -, -, focused⟩ := State.focus_of_slot h
  exact ⟨_, focused, rfl⟩

theorem transact_load (idle : s.activity = .idle) (hu : s.focus i = some u) (image : List Int) (pc0 rb0 : Word) :
    transact (.load i image pc0 rb0) s = .next (u.loadImage image pc0 rb0) := by
  simp only [transact, idle, State.onVm, hu]

theorem transact_enqueueInput (idle : s.activity = .idle) (hu : s.focus i = some u) (v : Word) :
    transact (.enqueueInput i v) s = .next ((u.withVm (u.vm.enqueueInput v)).answer .done) := by
  simp only [transact, idle, State.onVm, hu]

theorem transact_pokeMemory (idle : s.activity = .idle) (hu : s.focus i = some u) (a : Int) (v : Word) :
    transact (.pokeMemory i a v) s = .next (u.pokeMem a v) := by
  simp only [transact, idle, State.onVm, hu]

/-- run() issued on place i, with the instance there in focus. -/
theorem transact_run (idle : s.activity = .idle) (hu : s.focus i = some u) :
    transact (.run i) s = .next u.startRun := by
  simp only [transact, idle, State.onVm, hu]

/-- The instance at place i replaced: place i holds it, with the router's part as before. -/
theorem State.withVm_place (hu : s.focus i = some u) (v : VM) :
    (u.withVm v).slots[i]? = some { u.slot with vm := v } := by
  obtain ⟨-, index, -⟩ := State.focus_eq hu
  subst index
  exact State.slots_index (u.withVm v)

/-- And no other place changes. -/
theorem State.withVm_other_place (hu : s.focus i = some u) (v : VM) {j : Nat} (hj : j ≠ i) :
    (u.withVm v).slots[j]? = s.slots[j]? := by
  obtain ⟨slots, index, -⟩ := State.focus_eq hu
  rw [State.slots_withVm_ne (index ▸ hj), slots]

end

/-! ### load -/

/-- A value in the range of a Word is the value of its Word (R6). -/
theorem wrap_toInt_of_word {v : Int} (h : Config.wordMin ≤ v ∧ v ≤ Config.wordMax) : (wrap v).toInt = v := by
  obtain ⟨low, high⟩ := h
  simp only [Config.wordMin, Config.wordMax] at low high
  rw [wrap, BitVec.toInt_ofInt, Int.bmod_eq_of_le (by omega) (by omega)]

/-- Cell a of a loaded image is its a-th integer, and 0 above the image (R186). -/
theorem VM.load_read {image : List Int} (h : ∀ v ∈ image, Config.wordMin ≤ v ∧ v ≤ Config.wordMax) (pc0 rb0 : Word)
    (a : Nat) :
    ((VM.load (image.map wrap) pc0 rb0).mem.read a).toInt = image.getD a 0 := by
  have cell : (VM.load (image.map wrap) pc0 rb0).mem.read a = (image.map wrap).getD a 0 := Memory.read_ofImage _ a
  rw [cell, List.getD_eq_getElem?_getD, List.getElem?_map, List.getD_eq_getElem?_getD]
  cases ha : image[a]? with
  | none => rfl
  | some v => exact wrap_toInt_of_word (h v (List.mem_of_getElem? ha))

theorem VM.load_hwm (image : List Int) (pc0 rb0 : Word) :
    (VM.load (image.map wrap) pc0 rb0).hwm = image.length - 1 := by
  simp only [VM.load, List.length_map]

/-- Settles O34: the instance in focus is `VM.load` of the arguments. -/
theorem loadInitialisesEverything : Obligations.LoadInitialisesEverything := by
  intro s i image pc0 rb0 q idle place length words
  obtain ⟨u, focused, -⟩ := State.exists_focus place
  obtain ⟨-, index, -, -, -, activity, -⟩ := State.focus_eq focused
  have loaded : u.loadImage image pc0 rb0 = (u.withVm (VM.load (image.map wrap) pc0 rb0)).answer .done := by
    rw [State.loadImage, if_pos (imageOk_iff.2 ⟨length, words⟩)]
  refine ⟨_, (transact_load idle focused image pc0 rb0).trans (congrArg _ loaded), rfl, activity.trans idle, index,
    fun j hj => State.withVm_other_place focused _ hj, VM.load_read words pc0 rb0, VM.load_hwm image pc0 rb0,
    rfl, rfl, rfl, rfl, rfl, rfl⟩

theorem imageOk_false_of_bad {image : List Int}
    (h : Config.addrMax + 1 < (image.length : Int) ∨ ∃ v ∈ image, v < Config.wordMin ∨ Config.wordMax < v) :
    ¬imageOk image = true := by
  intro ok
  obtain ⟨length, words⟩ := imageOk_iff.1 ok
  rcases h with long | ⟨v, hv, out⟩
  · omega
  · have := words v hv
    omega

/-- Settles O53: a bad image is answered, and only answered. -/
theorem badImageChangesNothing : Obligations.BadImageChangesNothing := by
  intro s image idle bad
  have notOk := imageOk_false_of_bad bad
  constructor
  · intro i q pc0 rb0 place
    obtain ⟨u, focused, -⟩ := State.exists_focus place
    obtain ⟨slots, -, -, egress, netFault, activity, -⟩ := State.focus_eq focused
    have refused : u.loadImage image pc0 rb0 = u.answer .badImage := by rw [State.loadImage, if_neg notOk]
    exact ⟨_, (transact_load idle focused image pc0 rb0).trans (congrArg _ refused), rfl, activity.trans idle,
      slots, egress, netFault⟩
  · intro n h1 h2
    refine ⟨s.answer .badImage, ?_, rfl, idle, rfl, rfl, rfl⟩
    simp only [transact, idle]
    exact State.netInit_of_not_imageOk h1 h2 notOk

/-! ### enqueue_input and poke_memory -/

/-- Settles O35: the instance that was focused is replaced by `VM.enqueueInput` of it. -/
theorem enqueueAppendsOnly : Obligations.EnqueueAppendsOnly := by
  intro s i v q idle place
  obtain ⟨u, focused, rfl⟩ := State.exists_focus place
  obtain ⟨-, -, -, egress, netFault, activity, -⟩ := State.focus_eq focused
  exact ⟨_, transact_enqueueInput idle focused v, activity.trans idle, State.withVm_place focused _,
    fun j hj => State.withVm_other_place focused _ hj, egress, netFault⟩

/-- Settles O37: a legal address is stored to, an illegal one answered. -/
theorem pokeWritesAndRaisesHwm : Obligations.PokeWritesAndRaisesHwm := by
  intro s i a v q idle place
  obtain ⟨u, focused, rfl⟩ := State.exists_focus place
  obtain ⟨slots, -, -, -, -, activity, -⟩ := State.focus_eq focused
  refine ⟨u.pokeMem a v, transact_pokeMemory idle focused a v, ?_⟩
  by_cases legal : legalAddress a
  · have poked : u.pokeMem a v = (u.withVm (u.vm.store a v)).answer .done := by
      rw [State.pokeMem, if_pos legal, VM.poke, if_pos legal]
    rw [poked]
    refine ⟨activity.trans idle, fun _ => ⟨rfl, State.withVm_place focused _, fun canonical => ?_, fun b hb => ?_,
      fun j hj => State.withVm_other_place focused _ hj⟩, absurd legal⟩
    · exact Memory.read_write_same v canonical
    · exact Memory.read_write_other _ v hb
  · have refused : u.pokeMem a v = u.answer (.addressError a) := by rw [State.pokeMem, if_neg legal]
    rw [refused]
    exact ⟨activity.trans idle, fun h => absurd h legal, fun _ => ⟨rfl, slots⟩⟩

/-! ### The other transactions -/

/-- Settles O39: every activity but idle refuses. -/
theorem noTransactionDuringATransaction : Obligations.NoTransactionDuringATransaction := by
  intro c s busy
  unfold transact
  cases ha : s.activity with
  | idle => exact absurd ha busy
  | run => rfl
  | turn c => rfl
  | turnRun c => rfl
  | deliver c => rfl

/-- Settles O55: takeEgress focuses no place. -/
theorem takeEgressHandsOverTheQueue : Obligations.TakeEgressHandsOverTheQueue := by
  intro s idle
  exact ⟨{ s.answer (.egress s.egress) with egress := [] }, by simp only [transact, idle], rfl, rfl, idle, rfl, rfl, rfl⟩

end Sys2Proof.Machine
end

section
/-! PROOFS. run() (47_vm_instance.md R188 to R192): its entry, its return when the loop guard fails, and the power-on run. -/

namespace Sys2Proof.Machine

/-! ### The entry -/

/-- The entry of run() writes run_state and nothing else (R188, R191). -/
theorem VM.resume_eq (v : VM) :
    v.resume = { v with
      runState := if v.fault = none ∧ v.runState = .waitingForInput then .running else v.runState } := by
  unfold VM.resume
  split <;> rfl

/-- Settles O52: the instance that was focused is replaced by `VM.resume` of it. -/
theorem runBeginsOnItsInstance : Obligations.RunBeginsOnItsInstance := by
  intro s i q idle place
  obtain ⟨u, focused, rfl⟩ := State.exists_focus place
  obtain ⟨-, index, -, egress, netFault, -⟩ := State.focus_eq focused
  refine ⟨u.startRun, transact_run idle focused, index, rfl, ?_, fun j hj => ?_, egress, netFault⟩
  · rw [← VM.resume_eq]
    exact State.withVm_place focused _
  · exact State.withVm_other_place focused _ hj

/-! ### The return -/

/-- R189: a latched fault comes first. -/
theorem VM.status_fault {v : VM} {r : FaultRecord} (hf : v.fault = some r) : v.status = .fault (faultCode r.cause) := by
  simp only [VM.status, hf]

theorem VM.status_waiting {v : VM} (hf : v.fault = none) (hr : v.runState = .waitingForInput) :
    v.status = .waitingForInput := by
  simp only [VM.status, hf, hr]

theorem VM.status_running {v : VM} (hf : v.fault = none) (hr : v.runState = .running) : v.status = .ranOff := by
  simp only [VM.status, hf, hr]

/-- Settles O31: the next step is `State.endRun`, whose status is R189's. -/
theorem runReturnsWhenTheGuardFails : Obligations.RunReturnsWhenTheGuardFails := by
  intro s ha guard
  refine ⟨s.endRun, s.vm.status, step_run_return ha guard, rfl, rfl, rfl, rfl, rfl, fun r hf => VM.status_fault hf,
    VM.status_halted, VM.status_waiting, fun hf hr => ⟨VM.status_running hf hr, ?_⟩⟩
  by_contra hle
  exact guard ⟨hf, hr, not_lt.1 hle⟩

/-- An instance that is not Running, or has a fault latched, has no step (R111, R124). -/
theorem VM.not_canStep_of_stopped {v : VM} (h : v.runState ≠ .running ∨ v.fault ≠ none) : ¬v.canStep := by
  rintro ⟨clear, running, -⟩
  rcases h with h | h
  · exact h running
  · exact h clear

/-- A turn whose loop guard fails ends. -/
theorem step_turn_end {s : State} {c : RoundCtl} (ha : s.activity = .turnRun c) (hc : ¬s.vm.canStep) :
    step s = .next (s.endTurn c) := by
  simp only [step, ha, if_neg hc]

/-- The end of a turn drains the instance in focus, whether it faulted or not (R190). -/
theorem State.endTurn_focused (s : State) (c : RoundCtl) :
    ∃ q, (s.endTurn c).slots[s.index]? = some q ∧ q.vm = s.vm.drain := by
  cases hf : s.vm.fault with
  | none =>
    obtain ⟨-, places, -⟩ := State.endTurn_eq c hf
    exact ⟨_, places s.index s.slot s.slots_index, by rw [if_pos rfl]⟩
  | some r =>
    rw [State.endTurn_of_fault c hf]
    exact ⟨_, State.slots_index (s.withVm s.vm.drain), rfl⟩

/-- Settles O32: the guard fails, so what is in progress returns; enqueue_input writes neither run_state nor the latch. -/
theorem noStepWithoutRunning : Obligations.NoStepWithoutRunning := by
  intro s stopped
  have guard := VM.not_canStep_of_stopped stopped
  refine ⟨fun h => guard h.2, ?_, fun idle x => ?_⟩
  · rintro (ha | ⟨c, ha⟩)
    · exact ⟨_, _, step_run_return ha guard, State.slots_index (s.withVm s.vm.drain), rfl⟩
    · obtain ⟨q, place, vm⟩ := s.endTurn_focused c
      exact ⟨_, q, step_turn_end ha guard, place, vm⟩
  · exact ⟨_, transact_enqueueInput_index idle x, rfl, VM.not_canStep_of_stopped (v := s.vm.enqueueInput x) stopped, idle⟩

/-- The entry of run() leaves a halted or faulted instance alone (R192, R195). -/
theorem VM.resume_of_stopped {v : VM} (h : v.fault ≠ none ∨ v.runState = .halted) : v.resume = v := by
  rcases v.resume_cases with ⟨clear, waits, -⟩ | ⟨-, same⟩
  · rcases h with h | h
    · exact absurd clear h
    · cases waits.symm.trans h
  · exact same

/-- Settles O38: run() finds the instance as it is, and its guard fails at once. -/
theorem runOfAStoppedInstanceExecutesNothing : Obligations.RunOfAStoppedInstanceExecutesNothing := by
  intro s i q idle place stopped
  obtain ⟨u, focused, rfl⟩ := State.exists_focus place
  have entered : u.startRun = { u with activity := .run, reply := none } := by
    rw [State.startRun, VM.resume_of_stopped stopped]
    rfl
  have guard : ¬u.vm.canStep := by
    refine VM.not_canStep_of_stopped ?_
    rcases stopped with h | h
    · exact .inr h
    · exact .inl (by rw [h]; simp)
  refine ⟨u.startRun, u.startRun.endRun, transact_run idle focused, ?_, rfl, ?_, fun r hf => ?_, fun hf => ?_⟩
  · exact step_run_return rfl (by rw [entered]; exact guard)
  · rw [entered]
    exact State.withVm_place focused _
  · rw [entered, ← VM.status_fault hf]
    rfl
  · rw [entered, ← VM.status_halted hf (stopped.resolve_left (absurd hf))]
    rfl

/-- Settles O33: at power-on pc is above hwm, and memory is empty. -/
theorem powerOnState : Obligations.PowerOnState := by
  have focused : State.reset.focus 0 = some State.reset := State.reset.focus_index
  have guard : ¬State.reset.startRun.vm.canStep := by decide
  refine ⟨rfl, ⟨_, _, transact_run rfl focused, step_run_return rfl guard, rfl, rfl, rfl⟩, fun a ha => ?_⟩
  have legal : legalAddress (a : Int) := ⟨Int.natCast_nonneg a, ha⟩
  refine ⟨State.reset.answer (.word 0), ?_, rfl, rfl⟩
  have answered : State.reset.peek a = State.reset.answer (.word 0) := by
    rw [State.peek_eq_answer, Memory.peekReply_of_legal legal]
    rfl
  have issued : transact (.peekMemory 0 a) State.reset = State.reset.onVm 0 (fun t => t.peek a) := rfl
  simp only [issued, State.onVm, focused, answered]

end Sys2Proof.Machine
end

section
/-! PROOFS. Input boundaries do not matter (40_pipeline.md R123): feeding and running an instance is one run of its engine
(`completesAll_feedAndRun_iff`), and two runs with input fed between them are one run with all of it (`VM.Runs.split`). -/

namespace Sys2Proof.Machine

/-! ### Feeding and running as one run of the engine -/

theorem VM.extend_nil (v : VM) : v.extend [] [] = v := by
  simp only [VM.extend, List.append_nil, List.nil_append]

theorem VM.enqueueInput_extend (v : VM) (x : Word) (xs : List Word) :
    (v.enqueueInput x).extend xs [] = v.extend (x :: xs) [] := by
  simp only [VM.extend, VM.enqueueInput, List.append_assoc, List.singleton_append]

theorem VM.extend_append (v : VM) (xs ys : List Word) : v.extend (xs ++ ys) [] = (v.extend xs []).extend ys [] := by
  simp only [VM.extend, List.append_assoc, List.nil_append]

theorem VM.extend_resume (v : VM) (ys o : List Word) : (v.extend ys o).resume = v.resume.extend ys o := by
  rw [VM.resume_eq, VM.resume_eq]
  rfl

/-- The machine that run() leaves: w is the instance at its return. -/
def State.returned (u : State) (w : VM) : State := (({ u with activity := .run, reply := none } : State).withVm w).endRun

/-- R187, R188: the Words fed stand behind the input, and then the engine runs to its stop. -/
theorem completesAll_feedAndRun_iff {i : Nat} {xs : List Word} {s b : State} (idle : s.activity = .idle) :
    CompletesAll (feedAndRun i xs) s b ↔
      ∃ u w, s.focus i = some u ∧ VM.Runs (u.vm.extend xs []).resume w ∧ b = u.returned w := by
  induction xs generalizing s with
  | nil =>
    have run : CompletesAll (feedAndRun i []) s b ↔ Completes (.run i) s b :=
      ⟨fun ⟨_, h, e⟩ => e ▸ h, fun h => ⟨b, h, rfl⟩⟩
    simp only [run, completes_run idle, VM.extend_nil]
    rfl
  | cons x xs ih =>
    have feed : CompletesAll (feedAndRun i (x :: xs)) s b ↔
        ∃ m, Completes (.enqueueInput i x) s m ∧ CompletesAll (feedAndRun i xs) m b := Iff.rfl
    have fed : ∀ {u : State}, s.focus i = some u →
        (CompletesAll (feedAndRun i xs) ((u.withVm (u.vm.enqueueInput x)).answer .done) b ↔
          ∃ w, VM.Runs (u.vm.extend (x :: xs) []).resume w ∧ b = u.returned w) := by
      intro u hu
      obtain ⟨-, index, -, -, -, activity, -⟩ := State.focus_eq hu
      have again : ((u.withVm (u.vm.enqueueInput x)).answer .done).focus i =
          some ((u.withVm (u.vm.enqueueInput x)).answer .done) := State.focus_of_index index
      rw [ih (s := (u.withVm (u.vm.enqueueInput x)).answer .done) (activity.trans idle), again]
      constructor
      · rintro ⟨_, w, ⟨rfl⟩, runs, rfl⟩
        exact ⟨w, VM.enqueueInput_extend u.vm x xs ▸ runs, rfl⟩
      · rintro ⟨w, runs, rfl⟩
        rw [← VM.enqueueInput_extend] at runs
        exact ⟨_, w, rfl, runs, rfl⟩
    rw [feed]
    constructor
    · rintro ⟨m, h, rest⟩
      obtain ⟨u, hu, rfl⟩ := (completes_enqueueInput idle).1 h
      obtain ⟨w, runs, e⟩ := (fed hu).1 rest
      exact ⟨u, w, hu, runs, e⟩
    · rintro ⟨u, w, hu, runs, e⟩
      exact ⟨_, (completes_enqueueInput idle).2 ⟨u, hu, rfl⟩, (fed hu).2 ⟨w, runs, e⟩⟩

/-! ### Two runs as one -/

theorem VM.resume_not_waits (v : VM) : ¬v.resume.waits := by
  rcases v.resume_cases with ⟨-, -, h⟩ | ⟨stays, h⟩
  · rw [h]
    rintro ⟨-, waits⟩
    cases waits
  · rw [h]
    exact stays

/-- A run to w, then one from the drained w with ys fed: in one run with ys behind the input from the start, the outputs
of both come out one after the other. If w waits, the run goes on where it was suspended; if not, ys stays unread. -/
theorem VM.Runs.split {v w z : VM} {ys : List Word} (hv : ¬v.waits) (first : VM.Runs v w)
    (second : VM.Runs (w.drain.extend ys []).resume z) : VM.Runs (v.extend ys []) (z.extend [] w.outq) := by
  by_cases waits : w.waits
  · have entry : ((w.drain.extend ys []).resume).extend [] w.outq = { w with runState := .running, inq := ys } := by
      have resumes : (w.drain.extend ys []).resume = { w.drain.extend ys [] with runState := .running } := if_pos waits
      rw [resumes]
      simp only [VM.extend, VM.drain, first.waits_empty hv waits, List.nil_append, List.append_nil]
    exact first.resumed ys hv waits (entry ▸ second.prefixOutput w.outq)
  · have entry : (w.drain.extend ys []).resume = w.drain.extend ys [] := if_neg waits
    rw [entry] at second
    obtain rfl := VM.Runs.eq_of_stop (v := w.drain.extend ys []) first.ends second
    have same : (w.drain.extend ys []).extend [] w.outq = w.extend ys [] := by
      simp only [VM.extend, VM.drain, List.append_nil, List.nil_append]
    rw [same]
    exact first.moreInput ys waits

/-- Settles O51: both sides are runs of the engine of the instance at i (`completesAll_feedAndRun_iff`), and
`VM.Runs.split` makes one of the two. -/
theorem splittingTheInputChangesNothing : Obligations.SplittingTheInputChangesNothing := by
  intro s b b' i xs ys idle first second
  obtain ⟨u, w, hu, runs, rfl⟩ := (completesAll_feedAndRun_iff idle).1 first
  obtain ⟨-, index, -⟩ := State.focus_eq hu
  have again : (u.returned w).focus i = some (u.returned w) := State.focus_of_index index
  obtain ⟨_, z, hu', runs', rfl⟩ := (completesAll_feedAndRun_iff (s := u.returned w) rfl).1 second
  cases again.symm.trans hu'
  have whole : VM.Runs (u.vm.extend (xs ++ ys) []).resume (z.extend [] w.outq) := by
    rw [VM.extend_append, VM.extend_resume]
    exact runs.split (VM.resume_not_waits _) runs'
  exact ⟨u.returned (z.extend [] w.outq), w.status, z.status, w.outq, z.outq,
    (completesAll_feedAndRun_iff idle).2 ⟨u, _, hu, whole, rfl⟩, rfl, rfl, rfl, by
      simp only [State.returned, State.endRun, VM.extend, VM.drain, State.withVm, List.append_nil]⟩

end Sys2Proof.Machine
end

section
/-! PROOFS. The program image text (30_encoding.md R93). -/

namespace Sys2Proof.Machine

/-- D20: an integer that is accepted is a Word. -/
theorem parseInteger_word {cs : List Char} {v : Int} (h : parseInteger cs = some v) :
    Config.wordMin ≤ v ∧ v ≤ Config.wordMax := by
  unfold parseInteger at h
  split at h
  · obtain ⟨n, -, h⟩ := Option.bind_eq_some_iff.1 h
    split at h
    · next low =>
      cases h
      exact ⟨low, by simp only [Config.wordMax]; omega⟩
    · cases h
  · obtain ⟨n, -, h⟩ := Option.bind_eq_some_iff.1 h
    split at h
    · next high =>
      cases h
      exact ⟨by simp only [Config.wordMin]; omega, high⟩
    · cases h

/-- Fields that are all accepted give one Word each. -/
theorem mapM_parseInteger_words {fields : List (List Char)} {image : List Int}
    (h : fields.mapM parseInteger = some image) :
    image.length = fields.length ∧ ∀ v ∈ image, Config.wordMin ≤ v ∧ v ≤ Config.wordMax := by
  induction fields generalizing image with
  | nil =>
    cases h
    exact ⟨rfl, nofun⟩
  | cons f fs ih =>
    rw [List.mapM_cons] at h
    obtain ⟨v, hv, h⟩ := Option.bind_eq_some_iff.1 h
    obtain ⟨vs, hvs, h⟩ := Option.bind_eq_some_iff.1 h
    cases h
    obtain ⟨length, words⟩ := ih hvs
    exact ⟨congrArg Nat.succ length, List.forall_mem_cons.2 ⟨parseInteger_word hv, words⟩⟩

/-- Even the empty text has one field. -/
theorem splitFields_ne_nil (field cs : List Char) : splitFields field cs ≠ [] := by
  fun_induction splitFields field cs with
  | case1 field => exact List.cons_ne_nil _ _
  | case2 field cs ih => exact List.cons_ne_nil _ _
  | case3 field c cs hc ih => exact ih

/-- Settles O40: there is at least one field (`splitFields_ne_nil`), and each accepted field is a Word. -/
theorem acceptedImageHoldsWords : Obligations.AcceptedImageHoldsWords := by
  intro text image h
  obtain ⟨length, words⟩ := mapM_parseInteger_words h
  refine ⟨?_, words⟩
  rintro rfl
  exact splitFields_ne_nil _ _ (List.eq_nil_of_length_eq_zero length.symm)

end Sys2Proof.Machine
end

section
/-! PROOFS. The network (48_network.md): net_init, the start of a round, and the router's moves before a turn, after it and
at the boundary. -/

namespace Sys2Proof.Machine

/-! ### net_init and the start of a round -/

/-- The identifier of an instance is its index, up to the greatest Word (R211, log 9). -/
theorem instanceId_toInt {j : Nat} (h : (j : Int) ≤ Config.addrMax) : (instanceId j).toInt = j := by
  simp only [Config.addrMax] at h
  have small : (BitVec.ofNat 64 j).toNat = j := by rw [BitVec.toNat_ofNat, Nat.mod_eq_of_lt (by omega)]
  rw [instanceId, BitVec.toInt_eq_toNat_of_lt (by omega), small]

theorem netSlots_getElem? {image : List Word} {n j : Nat} (h : j < n) :
    (netSlots image n)[j]? = some (freshSlot image j) := by
  simp [netSlots, h]

/-- Settles O41: place j is `freshSlot` of the image and j. -/
theorem netInitLoadsEveryInstance : Obligations.NetInitLoadsEveryInstance := by
  intro s n image idle h1 h2 length words
  obtain ⟨t, ht, slots, egress, netFault, activity⟩ :=
    State.netInit_of_imageOk (s := s) h1 h2 (imageOk_iff.2 ⟨length, words⟩)
  refine ⟨t, by simp only [transact, idle]; exact ht, ?_, egress, netFault, activity, fun j hj => ?_⟩
  · rw [slots, netSlots, List.length_map, List.length_range]
  · refine ⟨freshSlot (image.map wrap) j, by rw [slots, netSlots_getElem? hj], rfl, rfl, ?_, rfl, rfl, rfl, rfl, rfl,
      VM.load_hwm image Config.pc0 Config.rb0, VM.load_read words Config.pc0 Config.rb0⟩
    exact congrArg (fun x => [x]) (instanceId_toInt (by omega))

theorem transact_round {s : State} (idle : s.activity = .idle) : transact .round s = .next (s.startRound false) := by
  simp only [transact, idle]

theorem transact_runNetwork {s : State} (idle : s.activity = .idle) :
    transact .runNetwork s = .next (s.startRound true) := by
  simp only [transact, idle]

/-- A round begins before the turn of instance 0, with every place as it was (R212, R224). -/
theorem State.startRound_eq {s : State} (loop : Bool) (hn : s.netFault = none) :
    (s.startRound loop).index = 0 ∧ (s.startRound loop).activity = .turn { sent := 0, turns := 0, loop := loop } ∧
      (s.startRound loop).egress = s.egress ∧ (s.startRound loop).netFault = none := by
  obtain ⟨-, index, egress, netFault, -⟩ := s.rewind_eq
  rw [State.startRound_of_no_fault loop hn]
  exact ⟨index, rfl, egress, netFault.trans hn⟩

/-- Settles O54: both commands are `State.startRound`. -/
theorem roundBeginsAtInstanceZero : Obligations.RoundBeginsAtInstanceZero := by
  intro s c loop idle hn command
  have issued : transact c s = .next (s.startRound loop) := by
    rcases command with ⟨rfl, rfl⟩ | ⟨rfl, rfl⟩
    · exact transact_round idle
    · exact transact_runNetwork idle
  obtain ⟨index, activity, egress, netFault⟩ := State.startRound_eq loop hn
  exact ⟨_, issued, s.startRound_slots loop, index, activity, egress, netFault⟩

/-! ### A turn -/

theorem step_turn {s : State} {c : RoundCtl} (ha : s.activity = .turn c) : step s = .next (s.beginTurn c) := by
  simp only [step, ha]

/-- The instance at the start of its turn: the sentinel if its input is empty, and Running unless faulted (R214, R188). -/
theorem VM.feedSentinel_resume {v : VM} (h : v.runState ≠ .halted) :
    v.feedSentinel.resume = { v with
      inq := if v.inq = [] then [Config.sentinel] else v.inq
      runState := if v.fault = none then .running else v.runState } := by
  have enters : (if v.fault = none ∧ v.runState = .waitingForInput then RunState.running else v.runState) =
      if v.fault = none then .running else v.runState := by
    cases hr : v.runState with
    | running => simp
    | waitingForInput => simp
    | halted => exact absurd hr h
  have fed : v.feedSentinel = { v with inq := if v.inq = [] then [Config.sentinel] else v.inq } := by
    unfold VM.feedSentinel
    split
    · next empty => rw [VM.enqueueInput, empty, List.nil_append]
    · rfl
  rw [VM.resume_eq, fed]
  simp only [enters]

/-- Settles O42: a halted instance is passed over (`State.nextPlace_eq`), any other begins its turn. -/
theorem turnBeginsWithTheSentinelTest : Obligations.TurnBeginsWithTheSentinelTest := by
  intro s c ha
  refine ⟨fun halted => ?_, fun runs => ?_⟩
  · obtain ⟨slots, egress, netFault, before, last⟩ := s.nextPlace_eq c
    have passed : s.beginTurn c = s.nextPlace c := if_pos halted
    exact ⟨_, (step_turn ha).trans (congrArg _ passed), slots, egress, netFault, before, fun h => (last h).2⟩
  · have begun : s.beginTurn c =
        { s.withVm s.vm.feedSentinel.resume with activity := .turnRun { c with turns := c.turns + 1 } } := if_neg runs
    rw [step_turn ha, begun, VM.feedSentinel_resume runs]
    rfl

/-- Settles O43: `State.endTurn_eq`; cutting keeps every Word (`cutPackets_append`). -/
theorem turnEndRoutesEveryPacket : Obligations.TurnEndRoutesEveryPacket := by
  intro s c ha guard hf
  obtain ⟨length, places, egress, netFault, before, last⟩ := State.endTurn_eq c hf
  exact ⟨s.endTurn c, _, _, step_turn_end ha guard, cutPackets_append _, cutPackets_rest _, length, places, egress,
    netFault, before, fun h => (last h).2⟩

/-! ### The boundary -/

/-- Whether the round that ends is idle: nothing sent, and every input FIFO empty after the delivery (R220, D30). -/
def State.idleAtBoundary (s : State) (c : RoundCtl) : Bool :=
  decide (c.sent = 0) && (s.mapSlots Slot.deliver).allInputsEmpty

theorem State.idleAtBoundary_iff (s : State) (c : RoundCtl) :
    s.idleAtBoundary c = true ↔ c.sent = 0 ∧ ∀ q ∈ s.slots, q.vm.inq ++ q.stage = [] := by
  simp [State.idleAtBoundary, State.allInputsEmpty, State.mapSlots_slots, Slot.deliver]

/-- R228: run_network() goes on with another round unless idle or without turns. -/
theorem State.endRound_again {s : State} {c : RoundCtl} (h : c.loop = true ∧ s.idleAtBoundary c = false ∧ c.turns ≠ 0) :
    s.endRound c = (s.mapSlots Slot.deliver).startRound true := if_pos h

/-- R221: the round returns. -/
theorem State.endRound_return {s : State} {c : RoundCtl}
    (h : ¬(c.loop = true ∧ s.idleAtBoundary c = false ∧ c.turns ≠ 0)) :
    s.endRound c = { s.mapSlots Slot.deliver with
      activity := .idle
      reply := some (.round { sent := c.sent, turns := c.turns, idle := s.idleAtBoundary c }) } := if_neg h

theorem step_deliver {s : State} {c : RoundCtl} (ha : s.activity = .deliver c) : step s = .next (s.endRound c) := by
  simp only [step, ha]

/-- Settles O44: the return and the next round apart; both deliver (`State.endRound_slots`). -/
theorem boundaryDeliversAndTestsIdle : Obligations.BoundaryDeliversAndTestsIdle := by
  intro s c ha hn
  refine ⟨s.endRound c, s.idleAtBoundary c, step_deliver ha, s.endRound_slots c, ?_⟩
  by_cases again : c.loop = true ∧ s.idleAtBoundary c = false ∧ c.turns ≠ 0
  · obtain ⟨index, activity, egress, netFault⟩ := State.startRound_eq (s := s.mapSlots Slot.deliver) true hn
    rw [← State.endRound_again again] at index activity egress netFault
    refine ⟨egress, netFault, s.idleAtBoundary_iff c, fun returns => ?_, fun _ _ _ => ⟨activity, index⟩⟩
    obtain ⟨loop, busy, turns⟩ := again
    simp [loop, busy, turns] at returns
  · rw [State.endRound_return again]
    exact ⟨rfl, hn, s.idleAtBoundary_iff c, fun _ => ⟨rfl, rfl⟩, fun h1 h2 h3 => absurd ⟨h1, h2, h3⟩ again⟩

/-! ### A fault in a turn -/

theorem State.loadImage_netFault (s : State) (image : List Int) (pc0 rb0 : Word) :
    (s.loadImage image pc0 rb0).netFault = s.netFault := by
  unfold State.loadImage
  split <;> rfl

theorem State.pokeMem_netFault (s : State) (a : Int) (x : Word) : (s.pokeMem a x).netFault = s.netFault := by
  unfold State.pokeMem
  split <;> rfl

/-- A transaction but net_init leaves the network's latch as it is, once it is set (R222). -/
theorem transact_netFault {c : HostCmd} {s t : State} (h : transact c s = .next t) (latched : s.netFault ≠ none) :
    t.netFault = s.netFault ∨ ∃ n image, c = .netInit n image := by
  have focused : ∀ {i : Nat} {u : State}, s.focus i = some u → u.netFault = s.netFault := by
    intro i u hu
    obtain ⟨-, -, -, -, netFault, -⟩ := State.focus_eq hu
    exact netFault
  rcases transact_cases h with ⟨i, image, pc0, rb0, u, -, hu, rfl⟩ | ⟨i, v, u, -, hu, rfl⟩ | ⟨i, u, -, hu, rfl⟩ |
    ⟨i, a, u, -, hu, rfl⟩ | ⟨i, a, v, u, -, hu, rfl⟩ | ⟨n, image, hc, -⟩ | ⟨loop, -, rfl⟩ | ⟨-, rfl⟩
  · exact .inl ((u.loadImage_netFault image pc0 rb0).trans (focused hu))
  · exact .inl ((rfl : _ = u.netFault).trans (focused hu))
  · exact .inl ((rfl : _ = u.netFault).trans (focused hu))
  · rw [State.peek_eq_answer]
    exact .inl ((rfl : _ = u.netFault).trans (focused hu))
  · exact .inl ((u.pokeMem_netFault a v).trans (focused hu))
  · exact .inr ⟨n, image, hc⟩
  · obtain ⟨ir, hn⟩ := Option.ne_none_iff_exists'.1 latched
    rw [State.startRound_of_fault loop hn]
    exact .inl rfl
  · exact .inl rfl

/-- No step leaves the network's latch set and changes it: with the latch set no round is in progress (the invariant). -/
theorem step_netFault {s t : State} (inv : s.Inv) (h : step s = .next t) (latched : s.netFault ≠ none) :
    t.netFault = s.netFault := by
  have noRound : s.activity.outsideRound := inv.noRoundAfterFault latched
  rcases step_cases h with ⟨-, rfl⟩ | ⟨-, -, rfl⟩ | ⟨c, ha, -⟩ | ⟨c, ha, -, -⟩ | ⟨c, ha, -⟩
  · rfl
  · rfl
  · exact absurd noRound (by simp [ha])
  · exact absurd noRound (by simp [ha])
  · exact absurd noRound (by simp [ha])

/-- Settles O45: `State.endTurn_of_fault`, `State.startRound_of_fault`, and what keeps the latch. -/
theorem faultInATurnStopsTheNetwork : Obligations.FaultInATurnStopsTheNetwork := by
  refine ⟨fun s c r ha hf => ?_, fun s i r idle hn => ?_, fun c s t h latched changed => ?_,
    fun s t inv h latched => step_netFault inv h latched⟩
  · have guard : ¬s.vm.canStep := VM.not_canStep_of_stopped (.inr (by rw [hf]; simp))
    exact ⟨_, (step_turn_end ha guard).trans (congrArg _ (State.endTurn_of_fault c hf)), rfl, rfl, rfl, rfl, rfl⟩
  · have same : { s with activity := .idle, reply := some (Reply.netFault i r) } =
        { s with reply := some (Reply.netFault i r) } := by rw [← idle]
    rw [transact_round idle, transact_runNetwork idle, State.startRound_of_fault _ hn, State.startRound_of_fault _ hn, same]
    exact ⟨rfl, rfl⟩
  · exact (transact_netFault h latched).resolve_left changed

end Sys2Proof.Machine
end
